-- ==== Sys2Proof/Word.lean ====
section
/-! DEFINITION. The units of the block: bytes, 16-bit words and byte strings (R10, R11). -/

namespace Sys2Proof

/-- An unsigned 8-bit value (R10). -/
abbrev Byte := BitVec 8

/-- An unsigned 16-bit value: a register address, a count or a register value (R8, R10). -/
abbrev Word := BitVec 16

/-- A request or reply frame: its bytes, byte 0 first (R11, R60). -/
abbrev Frame := List Byte

end Sys2Proof
end

