-- ==== Sys2Proof/Syntax.lean ====
section
/-! DEFINITION. The four request frames the block executes (R2, R71), the function codes that name
them, and the causes with which a frame is dropped (R181). -/

namespace Sys2Proof

/-- The four supported function codes (R71). The byte of each is `FunctionCode.toByte`. -/
inductive FunctionCode where
  | readHolding    -- RDH
  | readInput      -- RDI
  | writeSingle    -- WRS
  | writeMultiple  -- WRM
  deriving DecidableEq, Repr

/-- A request after decoding: one constructor per row of the opcode table, its operands in the order
of the request format. -/
inductive Instr where
  /-- Read Holding Registers, 0x03, format RQ-RD (R62, R145). -/
  | rdh (unit : Byte) (start count : Word)
  /-- Read Input Registers, 0x04, format RQ-RD (R62, R146). -/
  | rdi (unit : Byte) (start count : Word)
  /-- Write Single Register, 0x06, format RQ-WS (R63, R147). -/
  | wrs (unit : Byte) (start value : Word)
  /-- Write Multiple Registers, 0x10, format RQ-WM (R64, R148). `byteCount` is a field of the format
  that the engine does not use (R155). -/
  | wrm (unit : Byte) (start count : Word) (byteCount : Byte) (values : List Word)
  deriving DecidableEq, Repr

/-- Why a frame was dropped (R181). The cause is never on the wire (R180). -/
inductive DropCause where
  | shortFrame
  | reqCrcMismatch
  | unsupportedFc
  | underlength
  | byteCountRange
  deriving DecidableEq, Repr

/-- The spec's number of each cause; the order is also the priority order (R181, R182). -/
def DropCause.code : DropCause → Nat
  | .shortFrame     => 1
  | .reqCrcMismatch => 2
  | .unsupportedFc  => 3
  | .underlength    => 4
  | .byteCountRange => 5

end Sys2Proof
end

