-- ==== Sys2Proof/Machine/Operands.lean ====
section
/-! DEFINITION. Operand forms (R70): how bytes make words and words make bytes, the word address of
an access, and what the address decoder selects for a function code (R120, R121). -/

namespace Sys2Proof.Machine

/-- `be16(h, l) = (h << 8) | l` (R10, R70). -/
def be16 (h l : Byte) : Word := h ++ l

/-- `hi8(w) = w[15:8]` (R10). -/
def hi8 (w : Word) : Byte := w.extractLsb' 8 8

/-- `lo8(w) = w[7:0]` (R10). -/
def lo8 (w : Word) : Byte := w.extractLsb' 0 8

/-- A byte as a word, bits 15:8 zero: `zext_16(b)` (R10). -/
def zext16 (b : Byte) : Word := b.setWidth 16

/-- A word as it is sent, high byte first (R42, R70). -/
def wordBytes (w : Word) : Frame := [hi8 w, lo8 w]

/-- The two bytes of a CRC as they are sent, low byte first (R42, R69). -/
def crcTrailer (crc : Word) : Frame := [lo8 crc, hi8 crc]

/-- The first `n` big-endian words of a byte string (R64); callers check the length first (R156). -/
def takeWords : Nat → Frame → List Word
  | n + 1, h :: l :: rest => be16 h l :: takeWords n rest
  | _, _ => []

/-- Words as they are sent, one after another (R64, R66). -/
def putWords (ws : List Word) : Frame := ws.flatMap wordBytes

/-- `ea(start_addr, i) = (start_addr + i) mod 65536` (R121). -/
def ea (start : Word) (i : Nat) : Word := start + BitVec.ofNat 16 i

/-- The two banks (R21, R22). -/
inductive BankId where
  | holding
  | input
  deriving DecidableEq, Repr

/-- Whether a frame reads or writes the bank it selects (R120). -/
inductive Direction where
  | read
  | write
  deriving DecidableEq, Repr

/-- The bank a function code selects (R120). -/
def bankSelect : FunctionCode → BankId
  | .readHolding   => .holding
  | .readInput     => .input
  | .writeSingle   => .holding
  | .writeMultiple => .holding

/-- The direction a function code selects (R120). -/
def directionSelect : FunctionCode → Direction
  | .readHolding   => .read
  | .readInput     => .read
  | .writeSingle   => .write
  | .writeMultiple => .write

end Sys2Proof.Machine
end

