-- ==== Sys2Proof/WellFormed.lean ====
section
/-! DEFINITION. Which terms of `Instr` stand for a request frame: a WRM carries exactly `count`
values (R64). The other three formats have no relation between their fields. -/

namespace Sys2Proof

/-- The term is one that some request frame spells (R62, R63, R64). -/
def Instr.wf : Instr → Bool
  | .rdh _ _ _ => true
  | .rdi _ _ _ => true
  | .wrs _ _ _ => true
  | .wrm _ _ count _ values => values.length == count.toNat

/-- The least length of a request of this instruction (R71, R73). -/
def Instr.requiredLength : Instr → Nat
  | .rdh _ _ _ => 6
  | .rdi _ _ _ => 6
  | .wrs _ _ _ => 6
  | .wrm _ _ count _ _ => 7 + 2 * count.toNat

end Sys2Proof
end

