-- ==== Sys2Proof/Decode.lean ====
section
/-! DEFINITION. From request bytes to instructions and back (R60 to R73). Decoding is total: a frame
that is no request of the four supported ones is rejected with its drop cause. The list patterns
read no byte past the end of the frame (R156). -/

namespace Sys2Proof

open Sys2Proof.Machine

/-- The byte of a function code (R71). -/
def FunctionCode.toByte : FunctionCode → Byte
  | .readHolding   => 0x03
  | .readInput     => 0x04
  | .writeSingle   => 0x06
  | .writeMultiple => 0x10

/-- The function code of a byte, all 8 bits compared (R71); `none` is the unsupported space (R72). -/
def FunctionCode.ofByte (b : Byte) : Option FunctionCode :=
  if b = 0x03 then some .readHolding
  else if b = 0x04 then some .readInput
  else if b = 0x06 then some .writeSingle
  else if b = 0x10 then some .writeMultiple
  else none

/-- The function code of an instruction (R71). -/
def Instr.functionCode : Instr → FunctionCode
  | .rdh _ _ _     => .readHolding
  | .rdi _ _ _     => .readInput
  | .wrs _ _ _     => .writeSingle
  | .wrm _ _ _ _ _ => .writeMultiple

/-- The operands of a supported request, from the bytes after the four of the header; too few of
them is `underlength`, and bytes past the required length are ignored (R62 to R65, R73). -/
def decodePayload (fc : FunctionCode) (unit : Byte) (start : Word) :
    Frame → Except DropCause Instr
  | h :: l :: rest =>
    match fc with
    | .readHolding => .ok (.rdh unit start (be16 h l))
    | .readInput => .ok (.rdi unit start (be16 h l))
    | .writeSingle => .ok (.wrs unit start (be16 h l))
    | .writeMultiple =>
      match rest with
      | byteCount :: data =>
        if data.length < 2 * (be16 h l).toNat then .error .underlength
        else .ok (.wrm unit start (be16 h l) byteCount (takeWords (be16 h l).toNat data))
      | [] => .error .underlength
  | _ => .error .underlength

/-- Decode a request frame: the length of the header, then the function code, then the payload, in
the order of `Process` (R61, R71, R140, R142, R149). -/
def decode : Frame → Except DropCause Instr
  | unit :: code :: ah :: al :: payload =>
    match FunctionCode.ofByte code with
    | some fc => decodePayload fc unit (be16 ah al) payload
    | none => .error .unsupportedFc
  | _ => .error .shortFrame

/-- `long_enough(F)`, the spec's own text of the length test (R73), for `len(F) >= 4` and a supported
function code. `decode` tests the same by its patterns. -/
def longEnough (f : Frame) : Bool :=
  match FunctionCode.ofByte (f.getD 1 0) with
  | some .writeMultiple =>
    if f.length < 6 then false
    else decide (f.length ≥ 7 + 2 * (be16 (f.getD 4 0) (f.getD 5 0)).toNat)
  | some _ => decide (f.length ≥ 6)
  | none => false

/-- The bytes of a request, in the assembler's order (R62 to R64, R75). -/
def encode : Instr → Frame
  | .rdh u a n => [u, 0x03] ++ wordBytes a ++ wordBytes n
  | .rdi u a n => [u, 0x04] ++ wordBytes a ++ wordBytes n
  | .wrs u a v => [u, 0x06] ++ wordBytes a ++ wordBytes v
  | .wrm u a n b vs => [u, 0x10] ++ wordBytes a ++ wordBytes n ++ [b] ++ putWords vs

/-- `WRM u, a, [v0, ...]` of the assembler: count and byte count follow from the values (R75). -/
def assembleWrm (u : Byte) (a : Word) (vs : List Word) : Instr :=
  .wrm u a (BitVec.ofNat 16 vs.length) (BitVec.ofNat 8 (2 * vs.length)) vs

/-- The frame whose bits are `w`, numbered as the opcode table numbers them: the header and operand
words are big-endian 16-bit words, the first one in bits 15..0 (so that `match` and `mask` apply to
`be16(F[0], F[1])`, R71), the second in bits 31..16, the third in bits 47..32; a WRM goes on with its
byte count in bits 55..48 and then its value words. Bits at or above `nbits` are 0. -/
def tableFrame (nbits w : Nat) : Frame :=
  let bits := w % 2 ^ nbits
  let wordAt (lo : Nat) : Word := BitVec.ofNat 16 (bits >>> lo)
  let head := wordBytes (wordAt 0) ++ wordBytes (wordAt 16) ++ wordBytes (wordAt 32)
  match FunctionCode.ofByte (lo8 (wordAt 0)) with
  | some .writeMultiple =>
    head ++ [BitVec.ofNat 8 (bits >>> 48)] ++
      putWords ((List.range (wordAt 32).toNat).map fun i => wordAt (56 + 16 * i))
  | _ => head

/-- The instruction the decoder reads from the bits of a table row. -/
def decodeTableWord (nbits w : Nat) : Option Instr :=
  match decode (tableFrame nbits w) with
  | .ok i => some i
  | .error _ => none

end Sys2Proof
end

