-- ==== Sys2Proof/Machine/Crc.lean ====
section
/-! DEFINITION. The CRC-16 generator as a function (R100 to R106). Its register form, driven by the
frame engine, is in Machine/Ops.lean (R107). -/

namespace Sys2Proof.Machine

/-- `CRC_INIT` (R8, R101). -/
def crcSeed : Word := 0xFFFF

/-- `CRC_POLY`, bit-reflected (R8, R103). -/
def crcPoly : Word := 0xA001

/-- One bit step: bit 0 is tested before the shift (R103). -/
def crcBitStep (acc : Word) : Word :=
  if acc.getLsbD 0 then (acc >>> 1) ^^^ crcPoly else acc >>> 1

/-- `n` bit steps. -/
def crcBitSteps : Nat → Word → Word
  | 0, acc => acc
  | n + 1, acc => crcBitSteps n (crcBitStep acc)

/-- Absorb one byte into bits 7:0, then 8 bit steps (R102, R103): the effect of `crc_feed`. -/
def crcFeedByte (acc : Word) (b : Byte) : Word := crcBitSteps 8 (acc ^^^ zext16 b)

/-- `crc16(B)` (R100): from the seed, every byte in order, no final step (R104). -/
def crc16 (bytes : Frame) : Word := bytes.foldl crcFeedByte crcSeed

end Sys2Proof.Machine
end

