-- ==== Sys2Proof/Config.lean ====
section
/-! DEFINITION. The parameters the source leaves open (R9). They are fixed for the life of a block
(R28); a state carries them unchanged (log entry 1), so that a statement about every state is a
statement about every configuration. -/

namespace Sys2Proof

/-- What a read of more than 127 words does: `BYTE_COUNT_POLICY` (R9, R154). -/
inductive ByteCountPolicy where
  | drop
  | truncate
  deriving DecidableEq, Repr

/-- An initialization table: (address, value) pairs (R9). -/
abbrev InitTable := List (Word × Word)

/-- The implementation parameters of R9. -/
structure Config where
  /-- `INIT_HOLDING`. -/
  initHolding : InitTable
  /-- `INIT_INPUT`. -/
  initInput : InitTable
  /-- `CHECK_REQUEST_CRC`. -/
  checkRequestCrc : Bool
  /-- `BYTE_COUNT_POLICY`. -/
  byteCountPolicy : ByteCountPolicy
  /-- `MAX_FRAME_LEN`, the longest request the host delivers; `none` is unbounded. -/
  maxFrameLen : Option Nat
  deriving DecidableEq, Repr

/-- The spec's defaults (R9). The two tables have no default in the spec; DESIGN CHOICE: the empty
tables stand here (log entry 2, unsafe). -/
def Config.default : Config where
  initHolding := []
  initInput := []
  checkRequestCrc := false
  byteCountPolicy := .drop
  maxFrameLen := none

/-- The constraints R9 puts on the tables: unique addresses in each, and 9999 not in `INIT_INPUT`. -/
abbrev Config.Wf (c : Config) : Prop :=
  (c.initHolding.map Prod.fst).Nodup ∧ (c.initInput.map Prod.fst).Nodup ∧
    (9999 : Word) ∉ c.initInput.map Prod.fst

end Sys2Proof
end

