-- ==== Sys2Proof/Machine/Bank.lean ====
section
/-! DEFINITION. One register bank of 65536 words (R21, R22), held sparsely in one canonical form: the
words that are not 0, in rising order of address. An address that is not listed reads 0 (R23). The
unit is the 16-bit word, the smallest a bank has (R41). -/

namespace Sys2Proof.Machine

/-- The cells of a bank: (address, word). -/
abbrev Bank := List (Nat × Word)

/-- The canonical form: addresses strictly rising and below 65536, no word 0 listed. -/
abbrev Bank.Wf (b : Bank) : Prop :=
  List.Pairwise (fun c d => c.1 < d.1) b ∧ ∀ c ∈ b, c.1 < 65536 ∧ c.2 ≠ 0

/-- What an address that is not listed reads as: `UNSET_READ_VALUE` (R8, R23). -/
def unsetReadValue : Word := 0

/-- The word at the key `k`. -/
def Bank.find (k : Nat) : Bank → Word
  | [] => unsetReadValue
  | c :: rest => if c.1 = k then c.2 else Bank.find k rest

/-- The bank without the key `k`. -/
def Bank.erase (k : Nat) : Bank → Bank
  | [] => []
  | c :: rest => if c.1 = k then Bank.erase k rest else c :: Bank.erase k rest

/-- The bank with a cell put in before the first greater key. -/
def Bank.insert (k : Nat) (v : Word) : Bank → Bank
  | [] => [(k, v)]
  | c :: rest => if k < c.1 then (k, v) :: c :: rest else c :: Bank.insert k v rest

/-- `x[a]`: every address is readable (R12, R122, R123). -/
def Bank.read (b : Bank) (a : Word) : Word := Bank.find a.toNat b

/-- `x[a] <- v`: every address is writable (R12, R124); the word 0 is not listed. -/
def Bank.write (b : Bank) (a v : Word) : Bank :=
  if v = unsetReadValue then Bank.erase a.toNat b
  else Bank.insert a.toNat v (Bank.erase a.toNat b)

/-- Read the words at `ea(start, i)` for i = 0, 1, ..., n-1 (R121, R145, R146). -/
def Bank.readBlock (b : Bank) (start : Word) (n : Nat) : List Word :=
  (List.range n).map fun i => b.read (ea start i)

/-- Write `values` to `ea(start, i)`, `ea(start, i+1)`, ... in this order (R121, R129, R148). -/
def Bank.writeFrom (start : Word) : Nat → List Word → Bank → Bank
  | _, [], b => b
  | i, v :: rest, b => Bank.writeFrom start (i + 1) rest (b.write (ea start i) v)

/-- The bank `initialize()` leaves: every word 0, then the table's pairs in order (R126). -/
def Bank.ofTable (t : InitTable) : Bank := t.foldl (fun b p => b.write p.1 p.2) []

end Sys2Proof.Machine
end

