-- ==== Sys2Proof/Machine/State.lean ====
section
/-! DEFINITION. Everything the block and its interface hold (R20, R29, R30, R203, R205, R206), the
reasons a step could stop, and the state after reset (R33 to R36). -/

namespace Sys2Proof.Machine

/-- `phase` (R29). -/
inductive Phase where
  | unreset
  | ready
  deriving DecidableEq, Repr

/-- The result of one frame (R12, R152). -/
inductive Result where
  | reply (bytes : Frame)
  | noReply (cause : DropCause)
  deriving DecidableEq, Repr

/-- No step of the block stops with a fault: every error of a frame is a drop, after which the engine
goes on, and there is no fatal or halted state (R180, R185). The type has no constructor, so nothing
raises a fault; safe. -/
inductive Fault where
  deriving DecidableEq, Repr

/-- Why a term of `Instr` has no meaning. -/
inductive Refusal where
  /-- An instruction that has no meaning yet, by its mnemonic. No arm of `exec` raises it now; safe. -/
  | notModelled (mnemonic : String)
  /-- `execWrm` raises it on a term whose number of values is not its count: no request frame spells
  such a term (R64) and the decoder never gives one, so `step` never answers with it; safe. -/
  | illFormed
  deriving DecidableEq, Repr

/-- The state. The request and reply buffers hold nothing between frames (R31), so they are the
argument and the value of the meanings and no fields. -/
structure State where
  /-- The holding bank `H` (R21). -/
  holding : Bank
  /-- The input bank `I` (R22). -/
  input : Bank
  /-- Whether reset has run (R29). -/
  phase : Phase
  /-- The accumulator of the CRC generator (R30, R107). -/
  crcAcc : Word
  /-- The host's queue of delivered request frames, oldest first (R26, R205, R208). -/
  ingress : List Frame
  /-- Reset is asserted and waits for the end of the frame in progress (R203). -/
  resetPending : Bool
  /-- The results the host has received, oldest first (R206, R209). -/
  egress : List Result
  /-- The parameters of R9, changed by no step (R28). -/
  config : Config
  deriving DecidableEq, Repr

/-- The machine right after reset under a configuration (R33, R34, R35, R200), with no frame
delivered and no result yet. DESIGN CHOICE: the accumulator, to which the spec gives no reset value
(R36), holds the seed (log entry 3, unsafe). -/
def State.resetWith (c : Config) : State where
  holding := Bank.ofTable c.initHolding
  input := Bank.ofTable c.initInput
  phase := .ready
  crcAcc := 0xFFFF
  ingress := []
  resetPending := false
  egress := []
  config := c

/-- The machine right after reset under the default configuration (R9). -/
def State.reset : State := State.resetWith Config.default

end Sys2Proof.Machine
end

