-- ==== Sys2Proof/Machine/Ops.lean ====
section
/-! DEFINITION. The named operations over the state: the register file (R122 to R126), the CRC
generator (R107), the two results of a frame (R150, R180), reset (R200), and what the host does
(R205, R210). -/

namespace Sys2Proof.Machine

/-! ## Register file -/

/-- `readHolding(a)` (R122). -/
def State.readHolding (s : State) (a : Word) : Word := s.holding.read a

/-- `readInput(a)` (R123). -/
def State.readInput (s : State) (a : Word) : Word := s.input.read a

/-- `writeHolding(a, v)` (R124). -/
def State.writeHolding (s : State) (a v : Word) : State :=
  { s with holding := s.holding.write a v }

/-- `writeHolding` of each value in turn, from `start` on (R129, R148). -/
def State.writeHoldingBlock (s : State) (start : Word) (values : List Word) : State :=
  { s with holding := Bank.writeFrom start 0 values s.holding }

/-- The bank the address decoder selects (R120). -/
def State.bank (s : State) : BankId → Bank
  | .holding => s.holding
  | .input => s.input

/-- `initialize()` (R126). -/
def State.initialize (s : State) : State :=
  { s with
    holding := Bank.ofTable s.config.initHolding
    input := Bank.ofTable s.config.initInput }

/-! ## CRC generator -/

/-- `crc_init` (R107). -/
def State.crcInit (s : State) : State := { s with crcAcc := crcSeed }

/-- `crc_feed(b)` (R107). -/
def State.crcFeed (s : State) (b : Byte) : State := { s with crcAcc := crcFeedByte s.crcAcc b }

/-- `crc_value` (R107). -/
def State.crcValue (s : State) : Word := s.crcAcc

/-- `crc_init`, then `crc_feed` of every byte in order (R107). -/
def State.crcRun (s : State) (bytes : Frame) : State := bytes.foldl State.crcFeed s.crcInit

/-! ## The two results of a frame -/

/-- Hand a result to the host (R206). -/
def State.emit (s : State) (r : Result) : State := { s with egress := s.egress ++ [r] }

/-- `raise Drop(cause)`, the one exception of the block: the result is `NoReply(cause)`, nothing is
saved and nothing else changes; the engine is ready for the next frame (R180, R183, R184). -/
def State.drop (s : State) (cause : DropCause) : State := s.emit (.noReply cause)

/-- Reply with the PDU `p` and its CRC, which the generator computes over `p` (R69, R107, R150). -/
def State.sendReply (s : State) (p : Frame) : State :=
  (s.crcRun p).emit (.reply (p ++ crcTrailer (s.crcRun p).crcValue))

/-- The PDU of a read reply, format RS-RD (R66, R145, R146). -/
def readPdu (fc : FunctionCode) (unit : Byte) (words : List Word) : Frame :=
  [unit, fc.toByte, BitVec.ofNat 8 (2 * words.length)] ++ putWords words

/-- The PDU of a write reply: the first six bytes of the request (R67, R68). -/
def echoPdu (fc : FunctionCode) (unit : Byte) (start w : Word) : Frame :=
  [unit, fc.toByte] ++ wordBytes start ++ wordBytes w

/-- `2*n > 255 and BYTE_COUNT_POLICY = Drop` (R145, R154). -/
def byteCountDrops (c : Config) (count : Word) : Bool :=
  decide (2 * count.toNat > 255) && decide (c.byteCountPolicy = .drop)

/-- What 0x03 and 0x04 do with the bank their function code selects (R120, R145, R146). -/
def State.answerRead (s : State) (fc : FunctionCode) (unit : Byte) (start count : Word) : State :=
  if byteCountDrops s.config count then s.drop .byteCountRange
  else s.sendReply (readPdu fc unit ((s.bank (bankSelect fc)).readBlock start count.toNat))

/-! ## Reset and power -/

/-- Reset: `initialize()`, then `phase <- Ready`; no reply, no frame consumed (R200, R202). -/
def State.takeReset (s : State) : State :=
  { s.initialize with phase := .ready, resetPending := false }

/-- The block at power-up: the banks hold any value, which the arguments are, and no frame is taken
(R36). The accumulator has no value either; the argument is any value. The queue and the results are
empty and no reset is asserted yet (DESIGN CHOICE, log entry 12). -/
def State.powerUp (c : Config) (holding input : Bank) (acc : Word) : State :=
  { State.resetWith c with holding := holding, input := input, phase := .unreset, crcAcc := acc }

/-! ## The host -/

/-- The frame is one the host delivers: at most `MAX_FRAME_LEN` bytes (R9). -/
def deliverable (c : Config) (f : Frame) : Bool :=
  match c.maxFrameLen with
  | none => true
  | some m => decide (f.length ≤ m)

/-- The host delivers a frame: it joins the queue last (R205, R210); a frame the host does not
deliver is lost (R207). -/
def State.deliver (s : State) (f : Frame) : State :=
  if deliverable s.config f then { s with ingress := s.ingress ++ [f] } else s

/-- The host asserts reset, at any time (R203, R210). -/
def State.assertReset (s : State) : State := { s with resetPending := true }

/-- The host stops the block between frames: the block's state is lost, so it holds any value, which
the arguments are, until the next reset (R193, R210). DESIGN CHOICE: the queue and the results are the
host's and are kept (log entry 12), and so is a reset that is asserted but not yet taken, so a block
terminated with one pending restarts at its next step (log entry 17, unsafe). -/
def State.terminate (s : State) (holding input : Bank) (acc : Word) : State :=
  { s with holding := holding, input := input, phase := .unreset, crcAcc := acc }

/-- The frame as the host sends it to a block of this configuration: with its CRC where the block
checks one (R74). -/
def wireFrame (c : Config) (f : Frame) : Frame :=
  if c.checkRequestCrc then f ++ crcTrailer (crc16 f) else f

/-- The state with the frame next in turn to be taken. -/
def State.placeFrame (s : State) (f : Frame) : State :=
  { s with
    phase := .ready
    resetPending := false
    ingress := wireFrame s.config f :: s.ingress }

end Sys2Proof.Machine
end

