-- ==== Sys2Proof/Machine/Reads.lean ====
section
/-! DEFINITION. The meanings of the two read requests (R145, R146). -/

namespace Sys2Proof.Machine

/-- RDH, 0x03: reply with `count` words of `H`, or drop under the byte-count rule (R145, R154). -/
def execRdh (unit : Byte) (start count : Word) (s : State) : Host.Outcome State Fault Refusal :=
  .next (s.answerRead .readHolding unit start count)

/-- RDI, 0x04: reply with `count` words of `I`, or drop under the byte-count rule (R146, R154). -/
def execRdi (unit : Byte) (start count : Word) (s : State) : Host.Outcome State Fault Refusal :=
  .next (s.answerRead .readInput unit start count)

end Sys2Proof.Machine
end

