-- ==== Sys2Proof/Machine/Writes.lean ====
section
/-! DEFINITION. The meanings of the two write requests (R147, R148). -/

namespace Sys2Proof.Machine

/-- WRS, 0x06: write one word of `H` and echo the request (R147). -/
def execWrs (unit : Byte) (start value : Word) (s : State) : Host.Outcome State Fault Refusal :=
  .next ((s.writeHolding start value).sendReply (echoPdu .writeSingle unit start value))

/-- WRM, 0x10: write `count` words of `H` and echo address and count (R148). The byte count is not
used (R155). A term with another number of values than its count is no request. -/
def execWrm (unit : Byte) (start count : Word) (_byteCount : Byte) (values : List Word) (s : State) :
    Host.Outcome State Fault Refusal :=
  if values.length = count.toNat then
    .next ((s.writeHoldingBlock start values).sendReply (echoPdu .writeMultiple unit start count))
  else .refused .illFormed

end Sys2Proof.Machine
end

