-- ==== Sys2Proof/Machine/Dispatch.lean ====
section
/-! DEFINITION. The meaning of every instruction, one arm per constructor (R144). -/

namespace Sys2Proof.Machine

def exec (i : Instr) (s : State) : Host.Outcome State Fault Refusal :=
  match i with
  | .rdh u a n => Sys2Proof.Machine.execRdh u a n s
  | .rdi u a n => Sys2Proof.Machine.execRdi u a n s
  | .wrs u a v => Sys2Proof.Machine.execWrs u a v s
  | .wrm u a n b vs => Sys2Proof.Machine.execWrm u a n b vs s

end Sys2Proof.Machine
end

