-- ==== Sys2Proof/Machine/Fetch.lean ====
section
/-! DEFINITION. What the engine does next (R140, R193, R201, R203): take a pending reset, wait, or take
the oldest frame of the queue and either drop it or run it. -/

namespace Sys2Proof.Machine

/-- The optional check of the request's CRC, which strips it (R141). With `CHECK_REQUEST_CRC = false`
the frame is left as it is. The check uses the function `crc16` and leaves the generator's
accumulator alone (log entry 4). -/
def checkRequest (c : Config) (f : Frame) : Except DropCause Frame :=
  if c.checkRequestCrc then
    if f.length < 6 then .error .shortFrame
    else if crc16 (f.take (f.length - 2)) = be16 (f.getD (f.length - 1) 0) (f.getD (f.length - 2) 0)
    then .ok (f.take (f.length - 2))
    else .error .reqCrcMismatch
  else .ok f

/-- The instruction of a frame, or the cause with which it is dropped before any bank is touched
(R140 to R144, R149, R156). -/
def parse (c : Config) (f : Frame) : Except DropCause Instr :=
  match checkRequest c f with
  | .ok g => decode g
  | .error cause => .error cause

/-- What comes next. -/
inductive Fetched where
  /-- Nothing to do: the state is held. -/
  | wait
  /-- Reset is asserted. -/
  | reset
  /-- A frame was taken and is dropped; the state is the one with the frame taken. -/
  | dropped (cause : DropCause) (s : State)
  /-- A frame was taken and runs; the state is the one with the frame taken. -/
  | run (i : Instr) (s : State)
  deriving DecidableEq, Repr

/-- Fetch: a pending reset comes between frames (R203); before the first reset no frame is taken
(R201); with an empty queue the engine waits (R193); else the oldest frame is taken (R140, R205). -/
def State.fetch (s : State) : Fetched :=
  if s.resetPending then .reset
  else
    match s.phase, s.ingress with
    | .unreset, _ => .wait
    | .ready, [] => .wait
    | .ready, f :: rest =>
      match parse s.config f with
      | .ok i => .run i { s with ingress := rest }
      | .error cause => .dropped cause { s with ingress := rest }

end Sys2Proof.Machine
end

