-- ==== Sys2Proof/Machine/Step.lean ====
section
/-! DEFINITION. One step: a reset, a wait, or one whole frame (R47, R140, R200, R203). -/

namespace Sys2Proof.Machine

/-- One step of the block (R140). -/
def step (s : State) : Host.Outcome State Fault Refusal :=
  match s.fetch with
  | .wait => .next s
  | .reset => .next s.takeReset
  | .dropped cause s' => .next (s'.drop cause)
  | .run i s' => exec i s'

/-- The state with the instruction whose table bits are `w` as the frame `step` takes next (log
entry 5). -/
def State.withFetchWord (s : State) (nbits w : Nat) : State := s.placeFrame (tableFrame nbits w)

end Sys2Proof.Machine
end

