-- ==== Sys2Proof/Machine/Process.lean ====
section
/-! DEFINITION. `Process(F)` as the spec's pseudocode writes it (R140, R145 to R149): dense banks, which
are functions of the address (R23), request bytes by their offsets, and every length test where the
pseudocode has it. Nothing of the machine calls it: the refinement statements say that `step` does what
it says. -/

namespace Sys2Proof.Machine

/-- A bank as a total function from address to word (R23). -/
abbrev DenseBank := Word → Word

/-- `F[k]`; the pseudocode tests the length before it reads (R11, R156). -/
def byteAt (f : Frame) (k : Nat) : Byte := f.getD k 0

/-- `Reply(P ++ [lo8(crc16(P)), hi8(crc16(P))])` (R150). -/
def replyWithCrc (p : Frame) : Result := .reply (p ++ [lo8 (crc16 p), hi8 (crc16 p)])

/-- `x[a] <- v` on a dense bank. -/
def DenseBank.update (x : DenseBank) (a v : Word) : DenseBank := fun k => if k = a then v else x k

/-- `(sa + i) mod 65536` (R121). -/
def addressOf (sa : Word) (i : Nat) : Word := BitVec.ofNat 16 ((sa.toNat + i) % 65536)

/-- `RDH` and `RDI` on the bank `x` (R145, R146). -/
def processRead (c : Config) (x : DenseBank) (f : Frame) (u fc : Byte) (sa : Word) : Result :=
  if f.length < 6 then .noReply .underlength
  else
    let n := (be16 (byteAt f 4) (byteAt f 5)).toNat
    if 2 * n > 255 ∧ c.byteCountPolicy = .drop then .noReply .byteCountRange
    else
      replyWithCrc ((List.range n).foldl
        (fun p i => p ++ [hi8 (x (addressOf sa i)), lo8 (x (addressOf sa i))])
        [u, fc, BitVec.ofNat 8 ((2 * n) % 256)])

/-- `WRS` (R147). -/
def processWrs (h : DenseBank) (f : Frame) (sa : Word) : Result × DenseBank :=
  if f.length < 6 then (.noReply .underlength, h)
  else (replyWithCrc (f.take 6), h.update sa (be16 (byteAt f 4) (byteAt f 5)))

/-- `WRM` (R148). -/
def processWrm (h : DenseBank) (f : Frame) (sa : Word) : Result × DenseBank :=
  if f.length < 6 then (.noReply .underlength, h)
  else
    let n := (be16 (byteAt f 4) (byteAt f 5)).toNat
    if f.length < 7 + 2 * n then (.noReply .underlength, h)
    else
      (replyWithCrc (f.take 6),
        (List.range n).foldl
          (fun y i => y.update (addressOf sa i)
            (be16 (byteAt f (7 + 2 * i)) (byteAt f (8 + 2 * i)))) h)

/-- `Process(F)` after the optional CRC check (R140, R142 to R144, R149). -/
def processStripped (c : Config) (h x : DenseBank) (f : Frame) : Result × DenseBank :=
  if f.length < 4 then (.noReply .shortFrame, h)
  else
    let u := byteAt f 0
    let fc := byteAt f 1
    let sa := be16 (byteAt f 2) (byteAt f 3)
    if fc = 0x03 then (processRead c h f u fc sa, h)
    else if fc = 0x04 then (processRead c x f u fc sa, h)
    else if fc = 0x06 then processWrs h f sa
    else if fc = 0x10 then processWrm h f sa
    else (.noReply .unsupportedFc, h)

/-- `Process(F)` (R140): the result and the holding bank after it, `h` and `x` being `H` and `I`. -/
def process (c : Config) (h x : DenseBank) (f : Frame) : Result × DenseBank :=
  if c.checkRequestCrc = true then
    if f.length < 6 then (.noReply .shortFrame, h)
    else if crc16 (f.take (f.length - 2)) ≠ be16 (byteAt f (f.length - 1)) (byteAt f (f.length - 2))
    then (.noReply .reqCrcMismatch, h)
    else processStripped c h x (f.take (f.length - 2))
  else processStripped c h x f

/-- The bytes of a request before its CRC, where the block checks one (R74). -/
def requestBody (c : Config) (f : Frame) : Frame :=
  if c.checkRequestCrc = true then f.take (f.length - 2) else f

/-- When a cause applies to a frame, by itself (the condition column of R181). -/
def causeApplies (c : Config) (f : Frame) : DropCause → Bool
  | .shortFrame => decide (f.length < if c.checkRequestCrc then 6 else 4)
  | .reqCrcMismatch =>
    c.checkRequestCrc &&
      decide (crc16 (requestBody c f) ≠ be16 (byteAt f (f.length - 1)) (byteAt f (f.length - 2)))
  | .unsupportedFc => (FunctionCode.ofByte (byteAt (requestBody c f) 1)).isNone
  | .underlength =>
    (FunctionCode.ofByte (byteAt (requestBody c f) 1)).isSome && !longEnough (requestBody c f)
  | .byteCountRange =>
    decide (byteAt (requestBody c f) 1 = 0x03 ∨ byteAt (requestBody c f) 1 = 0x04) &&
      decide (c.byteCountPolicy = .drop) &&
      decide ((be16 (byteAt (requestBody c f) 4) (byteAt (requestBody c f) 5)).toNat > 127)

/-- Frames one after another, each against the bank the ones before it left (R51, R205): the results
in order and the final holding bank. -/
def processAll (c : Config) (x : DenseBank) : DenseBank → List Frame → List Result × DenseBank
  | h, [] => ([], h)
  | h, f :: rest =>
    let r := process c h x f
    let after := processAll c x r.2 rest
    (r.1 :: after.1, after.2)

end Sys2Proof.Machine
end

