-- ==== Sys2Proof/Safety.lean ====
section
/-! DEFINITION. What claims mean by a sound state and a sound reply. -/

namespace Sys2Proof.Machine

/-- A reply as R66 to R69 shape it: at least 5 bytes, at most 259 under the default byte-count policy, a
supported function code in byte 1, and the CRC of the bytes before it as its last two, low byte first. -/
structure ReplyOk (c : Config) (r : Frame) : Prop where
  shortest : 5 ≤ r.length
  longest : c.byteCountPolicy = .drop → r.length ≤ 259
  function : (FunctionCode.ofByte (r.getD 1 0)).isSome = true
  trailer : r.drop (r.length - 2) = crcTrailer (crc16 (r.take (r.length - 2)))

/-- A sound state: both banks in canonical form, the parameters as R9 constrains them, after reset the
input bank as the table left it (R125), every queued frame one the host may deliver, and every reply
given a sound one. -/
structure State.Inv (s : State) : Prop where
  holdingWf : Bank.Wf s.holding
  inputWf : Bank.Wf s.input
  configWf : s.config.Wf
  inputFixed : s.phase = .ready → s.input = Bank.ofTable s.config.initInput
  queued : ∀ f ∈ s.ingress, deliverable s.config f = true
  replies : ∀ r, Result.reply r ∈ s.egress → ReplyOk s.config r

/-- A frame is taken by the next step: the block is ready, no reset is asserted, and `f` is the oldest
frame of the queue, `rest` the others (R140, R203). -/
structure State.Takes (s : State) (f : Frame) (rest : List Frame) : Prop where
  ready : s.phase = .ready
  noReset : s.resetPending = false
  oldest : s.ingress = f :: rest

end Sys2Proof.Machine
end

