-- ==== Sys2Proof/Certificates/Slice0/Obligations.lean ====
section
/-! DEFINITION. The statements for the provers. Each docstring names the rule of spec/ it formalises and
says where it rests on a choice of the model's own log. -/

open Sys2Proof Sys2Proof.Machine

/-! ## Encoding -/

/-- Decoding the bytes of any well-formed request, with any bytes after them, gives the request back,
every operand at every value (R62 to R65, R70, R75). -/
def Obligations.DecodeOfEncodeIsIdentity : Prop :=
  ∀ (i : Instr) (t : Frame), i.wf = true → decode (encode i ++ t) = .ok i

/-- A frame that decodes is the encoding of a well-formed instruction followed by ignored bytes: the
decoder accepts nothing else and reads no field wrong against the encoder (R62 to R65). -/
def Obligations.DecodedFrameStartsWithItsEncoding : Prop :=
  ∀ (f : Frame) (i : Instr), decode f = .ok i → i.wf = true ∧ ∃ t, f = encode i ++ t

/-- When the decoder rejects a frame and with which cause, in the terms of the spec's `long_enough`
(R72, R73, R142, R149, R156). The two causes that are not the decoder's never come from it. -/
def Obligations.DecodeRejectsExactly : Prop :=
  ∀ f : Frame,
    (decode f = .error .shortFrame ↔ f.length < 4) ∧
    (decode f = .error .unsupportedFc ↔
      4 ≤ f.length ∧ f.getD 1 0 ∉ ([0x03, 0x04, 0x06, 0x10] : List Byte)) ∧
    (decode f = .error .underlength ↔
      4 ≤ f.length ∧ f.getD 1 0 ∈ ([0x03, 0x04, 0x06, 0x10] : List Byte) ∧ longEnough f = false) ∧
    decode f ≠ .error .reqCrcMismatch ∧ decode f ≠ .error .byteCountRange

/-- The requests the spec writes out byte by byte decode to what they stand for (R145 to R148). -/
def Obligations.WrittenOutRequestsDecode : Prop :=
  decode [0x01, 0x03, 0x01, 0x1A, 0x00, 0x01] = .ok (.rdh 1 282 1) ∧
  decode [0x01, 0x04, 0x27, 0x0F, 0x00, 0x01] = .ok (.rdi 1 9999 1) ∧
  decode [0x01, 0x06, 0x01, 0x1A, 0x00, 0x64] = .ok (.wrs 1 0x011A 0x0064) ∧
  decode [0x01, 0x10, 0x01, 0x2C, 0x00, 0x02, 0x04, 0x00, 0x0A, 0x00, 0x14] =
    .ok (.wrm 1 300 2 4 [10, 20])

/-! ## CRC generator -/

/-- The register form of the generator: from any state, `crc_init`, then `crc_feed` of the bytes of `B`
and of `C` one by one, leaves `crc16(B ++ C)` for `crc_value`, which is what feeding `C` to an
accumulator that holds `crc16(B)` leaves; both ways no other part of the state changes (R107, R108). -/
def Obligations.CrcGeneratorComputesCrc16InParts : Prop :=
  ∀ (s : State) (B C : Frame),
    (C.foldl State.crcFeed (B.foldl State.crcFeed s.crcInit)).crcValue = crc16 (B ++ C) ∧
    C.foldl State.crcFeed (B.foldl State.crcFeed s.crcInit) = { s with crcAcc := crc16 (B ++ C) } ∧
    C.foldl State.crcFeed { s with crcAcc := crc16 B } = { s with crcAcc := crc16 (B ++ C) }

/-- The bit-level reference of R109 (for the bytes 0x01 and 0x00, the accumulator after absorption and
after each of the bit steps 1 to 8, and the CRC), the empty input of R105 and the check value of the
spec's vector V-CRC-5. -/
def Obligations.CrcReferenceValues : Prop :=
  crcSeed ^^^ zext16 0x01 = 0xFFFE ∧
  (List.range 8).map (fun k => crcBitSteps (k + 1) 0xFFFE) =
    [0x7FFF, 0x9FFE, 0x4FFF, 0x87FE, 0x43FF, 0x81FE, 0x40FF, 0x807E] ∧
  crc16 [0x01] = 0x807E ∧
  crcSeed ^^^ zext16 0x00 = 0xFFFF ∧
  (List.range 8).map (fun k => crcBitSteps (k + 1) 0xFFFF) =
    [0xDFFE, 0x6FFF, 0x97FE, 0x4BFF, 0x85FE, 0x42FF, 0x817E, 0x40BF] ∧
  crc16 [0x00] = 0x40BF ∧
  crc16 [] = 0xFFFF ∧
  crc16 [0x31, 0x32, 0x33, 0x34, 0x35, 0x36, 0x37, 0x38, 0x39] = 0x4B37

/-- Appending a frame's CRC low byte first makes the CRC of the whole 0, for every frame. The spec's
vectors give instances (95_test_vectors.md 2.1) and say that no rule depends on it. -/
def Obligations.CrcOfFrameWithTrailerIsZero : Prop :=
  ∀ B : Frame, crc16 (B ++ [lo8 (crc16 B), hi8 (crc16 B)]) = 0

/-- Changing one byte of a frame, at any place, changes its CRC. It would fail for a polynomial without
bit 15, a test of bit 0 after the shift, or fewer bytes absorbed; a consequence of R101 to R104. -/
def Obligations.CrcDetectsOneChangedByte : Prop :=
  ∀ (p q : Frame) (b c : Byte), b ≠ c → crc16 (p ++ b :: q) ≠ crc16 (p ++ c :: q)

/-! ## Register file -/

/-- `ea(start, i) = (start + i) mod 65536`, and the addresses of a block are pairwise distinct (R121). -/
def Obligations.BlockAddressesWrapAndAreDistinct : Prop :=
  ∀ (start : Word) (count : Word),
    (∀ i, (ea start i).toNat = (start.toNat + i) % 65536) ∧
    ∀ i j, i < count.toNat → j < count.toNat → i ≠ j → ea start i ≠ ea start j

/-- A write stores its word and changes no other word of `H`, no word of `I` and no other state
(R127), in every state, canonical or not. -/
def Obligations.WriteHoldingIsIsolated : Prop :=
  ∀ (s : State) (a v : Word),
    let t := s.writeHolding a v
    t.readHolding a = v ∧
    (∀ k, k ≠ a → t.readHolding k = s.readHolding k) ∧
    (∀ k, t.readInput k = s.readInput k) ∧
    t = { s with holding := t.holding }

/-- Two banks in canonical form that read alike are the same data: whether a zero was ever written is
not in the state (R23). -/
def Obligations.BanksThatReadAlikeAreEqual : Prop :=
  ∀ b c : Bank, b.Wf → c.Wf → (∀ a, b.read a = c.read a) → b = c

/-- Writing a word that already holds the written value leaves the state unchanged (R49, R124). -/
def Obligations.RewritingTheSameValueChangesNothing : Prop :=
  ∀ (s : State) (a : Word), s.holding.Wf → s.writeHolding a (s.readHolding a) = s

/-- The order of a block's writes is not observable: every order of the indices gives the same bank
(R129). -/
def Obligations.BlockWriteOrderIsUnobservable : Prop :=
  ∀ (b : Bank) (start : Word) (vs : List Word) (order : List Nat),
    b.Wf → vs.length ≤ 65535 → order.Perm (List.range vs.length) →
    order.foldl (fun x i => x.write (ea start i) (vs.getD i 0)) b = Bank.writeFrom start 0 vs b

/-- The function code alone selects the bank and the direction (R120): byte 1 of a request is its
function code, and with the bank and the direction it selects it is one of the four rows of the table.
What a read gives, a reply or a drop, depends on the words of the selected bank alone (and on the fixed
parameters), and a read changes no bank. A write selects the holding bank and leaves the input bank
alone. -/
def Obligations.FunctionCodeSelectsBankAndDirection : Prop :=
  (∀ s : State, s.bank .holding = s.holding ∧ s.bank .input = s.input) ∧
  ∀ i : Instr,
    (encode i).getD 1 0 = i.functionCode.toByte ∧
    ((encode i).getD 1 0, bankSelect i.functionCode, directionSelect i.functionCode) ∈
      ([(0x03, .holding, .read), (0x04, .input, .read),
        (0x06, .holding, .write), (0x10, .holding, .write)] : List (Byte × BankId × Direction)) ∧
    (directionSelect i.functionCode = .read →
      ∀ s s' : State, s'.config = s.config →
        (∀ a, (s'.bank (bankSelect i.functionCode)).read a =
          (s.bank (bankSelect i.functionCode)).read a) →
        ∃ t t' r, exec i s = .next t ∧ exec i s' = .next t' ∧
          t.egress = s.egress ++ [r] ∧ t'.egress = s'.egress ++ [r] ∧
          t.holding = s.holding ∧ t.input = s.input) ∧
    (directionSelect i.functionCode = .write →
      bankSelect i.functionCode = .holding ∧ ∀ s t, exec i s = .next t → t.input = s.input)

/-! ## Instructions: completion, result and frame -/

/-- RDH completes, in every state, for every unit id, address and count that has a reply (at most 127,
or any under `Truncate`): the reply is the unit id, 0x03, the low byte of `2n`, the `n` words of `H`
from `start` on, wrapping, high byte first, then the CRC low byte first; the accumulator of the
generator ends at that CRC (log entry 3) and nothing else changes. -/
def Obligations.RdhRepliesWithHoldingWords : Prop :=
  ∀ (s : State) (u : Byte) (a n : Word),
    (n.toNat ≤ 127 ∨ s.config.byteCountPolicy = .truncate) →
    let p : Frame := [u, 0x03, BitVec.ofNat 8 (2 * n.toNat)] ++
      (List.range n.toNat).flatMap fun i =>
        let w := s.holding.read (a + BitVec.ofNat 16 i)
        [hi8 w, lo8 w]
    exec (.rdh u a n) s = .next
      { s with
        crcAcc := crc16 p
        egress := s.egress ++ [.reply (p ++ [lo8 (crc16 p), hi8 (crc16 p)])] }

/-- RDI completes as RDH does, with 0x04 and the words of `I`. -/
def Obligations.RdiRepliesWithInputWords : Prop :=
  ∀ (s : State) (u : Byte) (a n : Word),
    (n.toNat ≤ 127 ∨ s.config.byteCountPolicy = .truncate) →
    let p : Frame := [u, 0x04, BitVec.ofNat 8 (2 * n.toNat)] ++
      (List.range n.toNat).flatMap fun i =>
        let w := s.input.read (a + BitVec.ofNat 16 i)
        [hi8 w, lo8 w]
    exec (.rdi u a n) s = .next
      { s with
        crcAcc := crc16 p
        egress := s.egress ++ [.reply (p ++ [lo8 (crc16 p), hi8 (crc16 p)])] }

/-- A read of more than 127 words: under `Drop` the result is `NoReply(BYTE_COUNT_RANGE)` and nothing
else changes; under `Truncate` a reply whose third byte is `(2*count) mod 256` and which holds all the
`2*count` value bytes and the CRC (R154). -/
def Obligations.ReadsOver127WordsFollowThePolicy : Prop :=
  ∀ (s : State) (i : Instr) (u : Byte) (a n : Word), 127 < n.toNat →
    (i = .rdh u a n ∨ i = .rdi u a n) →
    (s.config.byteCountPolicy = .drop →
      exec i s = .next { s with egress := s.egress ++ [.noReply .byteCountRange] }) ∧
    (s.config.byteCountPolicy = .truncate →
      ∃ t r, exec i s = .next t ∧ t.egress = s.egress ++ [.reply r] ∧
        (r.getD 2 0).toNat = 2 * n.toNat % 256 ∧ r.length = 5 + 2 * n.toNat ∧
        r.drop (3 + 2 * n.toNat) = crcTrailer (crc16 (r.take (3 + 2 * n.toNat))) ∧
        ∀ k, k < n.toNat →
          be16 (r.getD (3 + 2 * k) 0) (r.getD (4 + 2 * k) 0) =
            (if i = .rdh u a n then s.readHolding (ea a k) else s.readInput (ea a k)))

/-- The length of a read reply: with count `N` from 0 to 127 it has `5 + 2N` bytes and its third byte is
`2N` (R66, and the property X2 of the spec's vectors). -/
def Obligations.ReadReplyLengthAndByteCount : Prop :=
  ∀ (s : State) (u : Byte) (a n : Word), n.toNat ≤ 127 →
    ∀ i ∈ [Instr.rdh u a n, Instr.rdi u a n],
      ∃ t r, exec i s = .next t ∧ t.egress = s.egress ++ [.reply r] ∧
        r.length = 5 + 2 * n.toNat ∧ (r.getD 2 0).toNat = 2 * n.toNat

/-- WRS completes, in every state and for every operand: the word at `start` is `value`, every other
word and everything else but the generator's accumulator is as before, and the reply is the six request
bytes and their CRC, low byte first. -/
def Obligations.WrsStoresAndEchoes : Prop :=
  ∀ (s : State) (u : Byte) (a v : Word),
    let p : Frame := [u, 0x06, hi8 a, lo8 a, hi8 v, lo8 v]
    ∃ h : Bank,
      exec (.wrs u a v) s = .next
        { s with
          holding := h
          crcAcc := crc16 p
          egress := s.egress ++ [.reply (p ++ [lo8 (crc16 p), hi8 (crc16 p)])] } ∧
      h.read a = v ∧ ∀ k, k ≠ a → h.read k = s.holding.read k

/-- WRM completes, in every state and for every well-formed operand: word `start + i`, wrapping, is
`value_i` for every `i` below the count, every other word and everything else but the generator's
accumulator is as before, and the reply echoes unit id, 0x10, address and count, with their CRC. -/
def Obligations.WrmStoresAndEchoes : Prop :=
  ∀ (s : State) (u : Byte) (a n : Word) (b : Byte) (vs : List Word),
    (Instr.wrm u a n b vs).wf = true →
    let p : Frame := [u, 0x10, hi8 a, lo8 a, hi8 n, lo8 n]
    ∃ h : Bank,
      exec (.wrm u a n b vs) s = .next
        { s with
          holding := h
          crcAcc := crc16 p
          egress := s.egress ++ [.reply (p ++ [lo8 (crc16 p), hi8 (crc16 p)])] } ∧
      (∀ i, i < n.toNat → h.read (a + BitVec.ofNat 16 i) = vs.getD i 0) ∧
      ∀ k, (∀ i, i < n.toNat → k ≠ a + BitVec.ofNat 16 i) → h.read k = s.holding.read k

/-- A WRM term whose number of values is not its count, which no request frame spells (R64), is refused
as ill-formed: the model's choice (log entry 8). -/
def Obligations.IllFormedWrmIsRefused : Prop :=
  ∀ (s : State) (u : Byte) (a n : Word) (b : Byte) (vs : List Word),
    (Instr.wrm u a n b vs).wf = false → exec (.wrm u a n b vs) s = .refused .illFormed

/-- The frame of RDH and RDI: whatever the operands and the policy, a read request changes no word of
either bank, nor the phase, the queue, the reset request or the parameters, and adds one result; the
accumulator is the one register it may change (R48). -/
def Obligations.ReadRequestsChangeNoState : Prop :=
  ∀ (s t : State) (u : Byte) (a n : Word),
    (exec (.rdh u a n) s = .next t ∨ exec (.rdi u a n) s = .next t) →
    (∀ k, t.holding.read k = s.holding.read k) ∧ (∀ k, t.input.read k = s.input.read k) ∧
    ∃ r, t = { s with crcAcc := t.crcAcc, egress := s.egress ++ [r] }

/-- The frame of WRS and WRM: the stored addresses are `ea start i` for the values in turn; every word
of `H` at another address, every word of `I`, the phase, the queue, the reset request and the
parameters are as before, and one result is added; the accumulator is the one register besides the
stored words that changes (R49, R127). -/
def Obligations.WriteRequestsChangeOnlyTheirWords : Prop :=
  ∀ (s t : State) (i : Instr) (u : Byte) (a n : Word) (b : Byte) (vs : List Word),
    ((∃ v, vs = [v] ∧ i = .wrs u a v) ∨ i = .wrm u a n b vs) →
    exec i s = .next t →
    (∀ k, (∀ j, j < vs.length → k ≠ ea a j) → t.holding.read k = s.holding.read k) ∧
    (∀ k, t.input.read k = s.input.read k) ∧
    ∃ r, t = { s with holding := t.holding, crcAcc := t.crcAcc, egress := s.egress ++ [r] }

/-! ## The step: one frame, one result -/

/-- When a frame is taken and decodes, the step is `exec` of the instruction on the state with the frame
off the queue, and nothing else. -/
def Obligations.StepRunsTheDecodedInstruction : Prop :=
  ∀ (s : State) (f : Frame) (rest : List Frame) (g : Frame) (i : Instr),
    s.Takes f rest → checkRequest s.config f = .ok g → decode g = .ok i →
    step s = exec i { s with ingress := rest }

/-- A table word that decodes is run by the very next step, in every state and under every
configuration, as the frame the host is about to deliver (the model's placing of an instruction, log
entry 5). -/
def Obligations.PlacedTableWordRunsNext : Prop :=
  ∀ (s : State) (nbits w : Nat) (i : Instr), decodeTableWord nbits w = some i →
    step (s.withFetchWord nbits w) = exec i { s with phase := .ready, resetPending := false }

/-- A frame of fewer than 4 bytes, the empty frame included, gives `NoReply(SHORT_FRAME)` and no state
change, under every configuration (R142). -/
def Obligations.ShortFramesAreDropped : Prop :=
  ∀ (s : State) (f : Frame) (rest : List Frame), s.Takes f rest → f.length < 4 →
    step s = .next { s with ingress := rest, egress := s.egress ++ [.noReply .shortFrame] }

/-- A frame of at least 4 bytes (after the optional CRC check) whose function code is none of the four
gives `NoReply(UNSUPPORTED_FC)` and no state change, whatever its other bytes (R149). -/
def Obligations.UnsupportedFunctionCodesAreDropped : Prop :=
  ∀ (s : State) (f : Frame) (rest : List Frame) (g : Frame),
    s.Takes f rest → checkRequest s.config f = .ok g → 4 ≤ g.length →
    g.getD 1 0 ∉ ([0x03, 0x04, 0x06, 0x10] : List Byte) →
    step s = .next { s with ingress := rest, egress := s.egress ++ [.noReply .unsupportedFc] }

/-- A supported request shorter than its required length gives `NoReply(UNDERLENGTH)` and changes no
state (R156, R73). -/
def Obligations.UnderlengthFramesAreDropped : Prop :=
  ∀ (s : State) (f : Frame) (rest : List Frame) (g : Frame),
    s.Takes f rest → checkRequest s.config f = .ok g → 4 ≤ g.length →
    g.getD 1 0 ∈ ([0x03, 0x04, 0x06, 0x10] : List Byte) → longEnough g = false →
    step s = .next { s with ingress := rest, egress := s.egress ++ [.noReply .underlength] }

/-- The optional check of the request's CRC (R141): with the check on, a frame shorter than 6 bytes is
dropped, a mismatch is dropped, and on a match the frame goes on without its last two bytes; with the
check off the frame goes on as it was delivered. To go on is to run the instruction it decodes to, or to
be dropped with the decoder's cause. That the check leaves the accumulator alone is the model's choice
(log entry 4). -/
def Obligations.RequestCrcCheckIsOptional : Prop :=
  ∀ (s : State) (f : Frame) (rest : List Frame), s.Takes f rest →
    let taken : State := { s with ingress := rest }
    let goesOn (g : Frame) : Host.Outcome State Fault Refusal :=
      match decode g with
      | .ok i => exec i taken
      | .error c => .next (taken.drop c)
    let body := f.take (f.length - 2)
    let sent := be16 (f.getD (f.length - 1) 0) (f.getD (f.length - 2) 0)
    step s =
      if s.config.checkRequestCrc = false then goesOn f
      else if f.length < 6 then .next (taken.drop .shortFrame)
      else if crc16 body = sent then goesOn body
      else .next (taken.drop .reqCrcMismatch)

/-- A request sent with its own CRC passes the check and is decoded as it was without it (R74, and the
`+crc` notation of R75). -/
def Obligations.RequestsWithTheirCrcPassTheCheck : Prop :=
  ∀ (c : Config) (f : Frame), 4 ≤ f.length → c.checkRequestCrc = true →
    parse c (f ++ [lo8 (crc16 f), hi8 (crc16 f)]) = decode f

/-- Bytes after the required length are ignored: under every configuration, a frame whose request bytes
are those of another and some more is processed exactly as that other, if that is long enough (R65). With
`CHECK_REQUEST_CRC = false` the request bytes are the frame (R74). -/
def Obligations.TrailingBytesAreIgnored : Prop :=
  ∀ (s : State) (f f' g extra : Frame) (rest : List Frame),
    s.Takes f rest → checkRequest s.config f = .ok g → checkRequest s.config f' = .ok (g ++ extra) →
    4 ≤ g.length → longEnough g = true →
    step { s with ingress := f' :: rest } = step s

/-- The byte count of a 0x10 request has no effect: under every configuration, two frames whose request
bytes differ in the byte at offset 6 alone give the same step (R155). -/
def Obligations.WrmByteCountHasNoEffect : Prop :=
  ∀ (s : State) (f f' g : Frame) (rest : List Frame) (b : Byte),
    s.Takes f rest → checkRequest s.config f = .ok g → checkRequest s.config f' = .ok (g.set 6 b) →
    g.getD 1 0 = 0x10 →
    step { s with ingress := f' :: rest } = step s

/-- The unit id plays no part in what a request does: under every configuration, of two frames whose
request bytes differ in byte 0 alone both are dropped with the same cause, or both are answered with
replies that differ only in byte 0, which is the request's, and the CRC; both leave the same banks
(R71, R151). -/
def Obligations.UnitIdIsOnlyEchoed : Prop :=
  ∀ (s t : State) (u v : Byte) (f f' g : Frame) (rest : List Frame),
    s.Takes f rest → checkRequest s.config f = .ok (u :: g) →
    checkRequest s.config f' = .ok (v :: g) → step s = .next t →
    ∃ t', step { s with ingress := f' :: rest } = .next t' ∧
      t'.holding = t.holding ∧ t'.input = t.input ∧
      ((∃ c, t.egress = s.egress ++ [.noReply c] ∧ t'.egress = s.egress ++ [.noReply c]) ∨
       (∃ p, t.egress = s.egress ++ [.reply ((u :: p) ++ crcTrailer (crc16 (u :: p)))] ∧
             t'.egress = s.egress ++ [.reply ((v :: p) ++ crcTrailer (crc16 (v :: p)))]))

/-- Byte 0 of a reply is byte 0 of its request and byte 1 its function code, under every configuration
(R151). -/
def Obligations.ReplyStartsWithUnitIdAndFunctionCode : Prop :=
  ∀ (s t : State) (f : Frame) (rest : List Frame) (r : Frame),
    s.Takes f rest → step s = .next t → t.egress = s.egress ++ [.reply r] →
    r.getD 0 0 = f.getD 0 0 ∧ r.getD 1 0 = f.getD 1 0

/-- A drop is precise: a step whose result is `NoReply(cause)` leaves everything but the queue and the
results as it was (R183, R180). -/
def Obligations.DropsArePrecise : Prop :=
  ∀ (s t : State) (c : DropCause),
    step s = .next t → t.egress = s.egress ++ [.noReply c] →
    t = { s with ingress := s.ingress.tail, egress := s.egress ++ [.noReply c] }

/-- Every step answers with a next state, and takes either no frame and gives no result, or the oldest
frame of the queue and gives exactly one result for it (R152, R205). That every state has a step, before
the first reset and with an empty queue too, is the model's choice (log entry 6); that none stops with a
fault is read from the spec (log entry 10). -/
def Obligations.OneResultPerFrameTaken : Prop :=
  ∀ s : State, ∃ t, step s = .next t ∧
    ((t.ingress = s.ingress ∧ t.egress = s.egress) ∨
     (∃ f r, s.ingress = f :: t.ingress ∧ t.egress = s.egress ++ [r]))

/-- A read right after a write sees the value, under every configuration: a WRS frame and then a
one-word RDH frame at the same address, each sent as the configuration asks, reply with the echo and with
the written word (R51, R211). -/
def Obligations.ReadFrameSeesTheWriteBeforeIt : Prop :=
  ∀ (s : State) (u u' : Byte) (a v : Word) (rest : List Frame),
    s.Takes (wireFrame s.config (encode (.wrs u a v)))
      (wireFrame s.config (encode (.rdh u' a 1)) :: rest) →
    let p : Frame := [u, 0x06, hi8 a, lo8 a, hi8 v, lo8 v]
    let q : Frame := [u', 0x03, 0x02, hi8 v, lo8 v]
    ∃ t t', step s = .next t ∧ step t = .next t' ∧ t'.ingress = rest ∧
      t'.egress = s.egress ++
        [.reply (p ++ [lo8 (crc16 p), hi8 (crc16 p)]), .reply (q ++ [lo8 (crc16 q), hi8 (crc16 q)])]

/-- The cause that is reported is the first that applies, in the order of the codes; a frame to which no
cause applies is answered with a reply (R181, R182). -/
def Obligations.DropCauseIsTheFirstThatApplies : Prop :=
  ∀ (s : State) (f : Frame) (rest : List Frame), s.Takes f rest →
    ∃ t r, step s = .next t ∧ t.egress = s.egress ++ [r] ∧
      (∀ c, r = .noReply c ↔
        causeApplies s.config f c = true ∧
          ∀ c' : DropCause, c'.code < c.code → causeApplies s.config f c' = false) ∧
      ((∃ p, r = .reply p) ↔ ∀ c, causeApplies s.config f c = false)

/-- The step does what `Process(F)` says (R140): on a frame taken, under every configuration, the result
and every word of the holding bank afterwards are those of the pseudocode over dense banks; the input
bank, the phase and the parameters are unchanged. -/
def Obligations.StepRefinesProcess : Prop :=
  ∀ (s : State) (f : Frame) (rest : List Frame), s.Takes f rest →
    let r := process s.config s.holding.read s.input.read f
    ∃ t, step s = .next t ∧ t.ingress = rest ∧ t.egress = s.egress ++ [r.1] ∧
      (∀ a, t.holding.read a = r.2 a) ∧
      t.input = s.input ∧ t.phase = s.phase ∧ t.config = s.config ∧ t.resetPending = s.resetPending

/-- The frames of the queue are processed in its order, one a step, each against the bank the ones
before it left, and give one result each, in order (R51, R205, R206). That the queue's order is the order
of arrival is the statement DeliveredFramesJoinTheQueueLast. -/
def Obligations.RunProcessesTheQueueInOrder : Prop :=
  ∀ (s : State) (k : Nat), s.phase = .ready → s.resetPending = false → k ≤ s.ingress.length →
    let r := processAll s.config s.input.read s.holding.read (s.ingress.take k)
    ∃ t : State, Host.Core.run Sys2Proof.core k s = .next t ∧
      t.ingress = s.ingress.drop k ∧ t.egress = s.egress ++ r.1 ∧
      (∀ a, t.holding.read a = r.2 a) ∧ t.input = s.input

/-! ## Reset, waiting and what no frame changes -/

/-- A reset that is asserted is taken by the next step, whatever the phase and the queue: both banks hold
their tables and 0 elsewhere, the phase is `Ready`, no frame is consumed and no result given (R33, R34,
R200, R202, R203). That an asserted reset is a line which the next step takes before any frame and
clears is the model's reading (log entry 7). -/
def Obligations.ResetInitializesBothBanks : Prop :=
  ∀ s : State, s.config.Wf → s.resetPending = true →
    ∃ t, step s = .next t ∧
      (∀ p ∈ s.config.initHolding, t.holding.read p.1 = p.2) ∧
      (∀ a, a ∉ s.config.initHolding.map Prod.fst → t.holding.read a = 0) ∧
      (∀ p ∈ s.config.initInput, t.input.read p.1 = p.2) ∧
      (∀ a, a ∉ s.config.initInput.map Prod.fst → t.input.read a = 0) ∧
      t.input.read 9999 = 0 ∧
      t.phase = .ready ∧ t.resetPending = false ∧
      t.ingress = s.ingress ∧ t.egress = s.egress ∧ t.config = s.config

/-- What reset leaves, for every configuration whose tables R9 allows (R33, R34, R35): the banks hold
the tables and 0 elsewhere, and the phase is `Ready`. `State.reset` is this state for the default
parameters. -/
def Obligations.ResetStateHoldsTheTables : Prop :=
  State.reset = State.resetWith Config.default ∧
  ∀ c : Config, c.Wf →
    let s := State.resetWith c
    (∀ p ∈ c.initHolding, s.readHolding p.1 = p.2) ∧
    (∀ a, a ∉ c.initHolding.map Prod.fst → s.readHolding a = 0) ∧
    (∀ p ∈ c.initInput, s.readInput p.1 = p.2) ∧
    (∀ a, a ∉ c.initInput.map Prod.fst → s.readInput a = 0) ∧
    s.phase = .ready ∧ s.config = c

/-- Before the first reset no frame is taken: with the phase `Unreset` and no reset asserted the step
holds the whole state, so no frame is answered and none is dropped (R201). That such a step is a step
at all, and not a stop, is the model's choice (log entry 6). -/
def Obligations.NoFrameIsTakenBeforeReset : Prop :=
  ∀ s : State, s.phase = .unreset → s.resetPending = false → step s = .next s

/-- With an empty queue and no reset asserted the engine waits, holding all state (R193). That waiting
is a step which answers with the same state, before the first reset too, is the model's choice (log
entry 6). -/
def Obligations.EmptyQueueHoldsTheState : Prop :=
  ∀ s : State, s.ingress = [] → s.resetPending = false → step s = .next s

/-- From power-up, whatever the banks and the accumulator hold, nothing is taken until a reset; and one
reset later the state is what reset leaves under the configuration, but for the accumulator (R36,
R201). The model's choices: that a step before the reset answers with the same state (log entry 6), that
an asserted reset is taken by the next step (log entry 7), and that a reset leaves the accumulator as it
was (log entry 3). -/
def Obligations.PowerUpContentsAreUnobservable : Prop :=
  ∀ (c : Config) (h i : Bank) (x : Word) (f : Frame),
    step ((State.powerUp c h i x).deliver f) = .next ((State.powerUp c h i x).deliver f) ∧
    step (State.powerUp c h i x).assertReset = .next { State.resetWith c with crcAcc := x }

/-- No frame writes the input bank: it changes only by a reset that was asserted, and is then the
table's (R125). -/
def Obligations.InputBankChangesOnlyByReset : Prop :=
  ∀ s t : State, step s = .next t →
    t.input = s.input ∨ (s.resetPending = true ∧ t.input = Bank.ofTable s.config.initInput)

/-- The parameters are changed by no step, and the phase by no frame: it changes only by a reset that
was asserted, to `Ready` (R28, R29). -/
def Obligations.FramesKeepPhaseAndParameters : Prop :=
  ∀ s t : State, step s = .next t →
    t.config = s.config ∧ (t.phase = s.phase ∨ (s.resetPending = true ∧ t.phase = .ready))

/-- The accumulator is hidden: whatever it holds before a step, the step gives the same state but for
the accumulator; so no result, no bank word and no later frame depends on it (R30). -/
def Obligations.AccumulatorIsHidden : Prop :=
  ∀ (s t : State) (x : Word), step s = .next t →
    ∃ y, step { s with crcAcc := x } = .next { t with crcAcc := y }

/-- Replies depend on nothing earlier but the banks: results already given do not change what a step
does (R20, R31). -/
def Obligations.EarlierResultsDoNotMatter : Prop :=
  ∀ (s t : State) (before : List Result), step s = .next t →
    step { s with egress := before ++ s.egress } = .next { t with egress := before ++ t.egress }

/-! ## Invariants -/

/-- Every step keeps a sound state sound: both banks in canonical form, the input bank as its table left
it, and every reply given of a sound shape, its last two bytes the CRC of the bytes before them. -/
def Obligations.StepKeepsSoundStates : Prop :=
  ∀ s t : State, s.Inv → step s = .next t → t.Inv

/-- What reset leaves is sound, for every configuration that R9 allows. -/
def Obligations.ResetStatesAreSound : Prop :=
  ∀ c : Config, c.Wf → (State.resetWith c).Inv

/-- What the host may do keeps a sound state sound: deliver any frame, assert reset, and stop the block
with any canonical contents left in the banks. -/
def Obligations.HostActionsKeepSoundStates : Prop :=
  ∀ s : State, s.Inv →
    (∀ f, (s.deliver f).Inv) ∧ s.assertReset.Inv ∧
    ∀ (h i : Bank) (x : Word), h.Wf → i.Wf → (s.terminate h i x).Inv

/-! ## What the host does -/

/-- Deliveries keep the order of arrival: a frame of at most `MAX_FRAME_LEN` bytes joins the queue last
and changes nothing else, a longer one leaves the state as it was, and frames delivered one after
another join in that order (R205, R207, R210). That the bound is applied at delivery, and that a longer
frame is lost there, is the model's choice (log entry 13). -/
def Obligations.DeliveredFramesJoinTheQueueLast : Prop :=
  ∀ s : State,
    (∀ f : Frame, (∀ m, s.config.maxFrameLen = some m → f.length ≤ m) →
      s.deliver f = { s with ingress := s.ingress ++ [f] }) ∧
    (∀ (f : Frame) (m : Nat), s.config.maxFrameLen = some m → m < f.length → s.deliver f = s) ∧
    ∀ fs : List Frame, fs.foldl State.deliver s =
      { s with
        ingress := s.ingress ++
          fs.filter fun f => s.config.maxFrameLen.all fun m => decide (f.length ≤ m) }

/-- The host may deliver at any time (R210): a frame that arrives before a step which it does not wake
changes nothing of that step and joins the queue behind the frames already there, as if it had arrived
after it (R205, R211). The one step it wakes is that of a ready block with an empty queue and no reset
asserted. That the steps which take no frame are steps is the model's choice (log entries 6 and 7). -/
def Obligations.LaterArrivalsDoNotChangeTheStep : Prop :=
  ∀ (s t : State) (f : Frame),
    (s.ingress ≠ [] ∨ s.phase = .unreset ∨ s.resetPending = true) →
    step s = .next t → step (s.deliver f) = .next (t.deliver f)

/-- A termination loses the state of the block, whatever the banks and the accumulator hold after it
(R193, R210): with no reset asserted nothing is taken, and one reset later the state is what reset leaves
under the configuration, but for the accumulator, the queue and the results. The model's choices: the
queue and the results are kept (log entry 12), an assertion not yet taken is kept too, so that the block
restarts at the next step (log entry 17), and the accumulator, the held state and the taking of the reset
are those of log entries 3, 6 and 7. -/
def Obligations.TerminationLosesTheBlockState : Prop :=
  ∀ (s : State) (h i : Bank) (x : Word),
    let restarted : State :=
      { State.resetWith s.config with crcAcc := x, ingress := s.ingress, egress := s.egress }
    (s.resetPending = false → step (s.terminate h i x) = .next (s.terminate h i x)) ∧
    (s.resetPending = true → step (s.terminate h i x) = .next restarted) ∧
    step (s.terminate h i x).assertReset = .next restarted
end

