-- ==== Sys2Proof/Laws/Operands.lean ====
section
/-! SUPPORT. Laws of the operand forms: bytes and words convert back and forth without loss, and the
word addresses of a block are distinct. -/

namespace Sys2Proof.Machine

theorem be16_toNat (h l : Byte) : (be16 h l).toNat = 256 * h.toNat + l.toNat := by
  have hl := l.isLt
  simp only [be16, BitVec.toNat_append]
  rw [← Nat.shiftLeft_add_eq_or_of_lt hl, Nat.shiftLeft_eq]
  omega

theorem hi8_toNat (w : Word) : (hi8 w).toNat = w.toNat / 256 := by
  have := w.isLt
  simp [hi8, BitVec.extractLsb'_toNat, Nat.shiftRight_eq_div_pow]
  omega

theorem lo8_toNat (w : Word) : (lo8 w).toNat = w.toNat % 256 := by
  simp [lo8, BitVec.extractLsb'_toNat]

@[simp] theorem be16_hi8_lo8 (w : Word) : be16 (hi8 w) (lo8 w) = w := by
  apply BitVec.eq_of_toNat_eq
  rw [be16_toNat, hi8_toNat, lo8_toNat]
  omega

@[simp] theorem hi8_be16 (h l : Byte) : hi8 (be16 h l) = h := by
  apply BitVec.eq_of_toNat_eq
  have := l.isLt
  rw [hi8_toNat, be16_toNat]
  omega

@[simp] theorem lo8_be16 (h l : Byte) : lo8 (be16 h l) = l := by
  apply BitVec.eq_of_toNat_eq
  have := l.isLt
  rw [lo8_toNat, be16_toNat]
  omega

@[simp] theorem wordBytes_be16 (h l : Byte) : wordBytes (be16 h l) = [h, l] := by
  simp [wordBytes]

@[simp] theorem wordBytes_length (w : Word) : (wordBytes w).length = 2 := rfl

@[simp] theorem crcTrailer_length (w : Word) : (crcTrailer w).length = 2 := rfl

@[simp] theorem putWords_nil : putWords [] = [] := rfl

@[simp] theorem putWords_cons (w : Word) (ws : List Word) :
    putWords (w :: ws) = hi8 w :: lo8 w :: putWords ws := rfl

@[simp] theorem putWords_length (ws : List Word) : (putWords ws).length = 2 * ws.length := by
  induction ws with
  | nil => rfl
  | cons w ws ih => simp [ih]; omega

theorem takeWords_putWords (ws : List Word) (rest : Frame) :
    takeWords ws.length (putWords ws ++ rest) = ws := by
  induction ws with
  | nil => simp [takeWords]
  | cons w ws ih => simp [takeWords, ih]

theorem takeWords_length (n : Nat) (f : Frame) (h : 2 * n ≤ f.length) :
    (takeWords n f).length = n := by
  induction n generalizing f with
  | zero => simp [takeWords]
  | succ n ih =>
    match f with
    | [] => simp at h
    | [_] => simp at h; omega
    | _ :: _ :: rest => simp at h; simp [takeWords, ih rest (by omega)]

theorem putWords_takeWords (n : Nat) (f : Frame) (h : 2 * n ≤ f.length) :
    putWords (takeWords n f) = f.take (2 * n) := by
  induction n generalizing f with
  | zero => simp [takeWords]
  | succ n ih =>
    match f with
    | [] => simp at h
    | [_] => simp at h; omega
    | _ :: _ :: rest =>
      simp at h
      simp [takeWords, ih rest (by omega), show 2 * (n + 1) = 2 * n + 2 from rfl]

theorem ea_toNat (start : Word) (i : Nat) : (ea start i).toNat = (start.toNat + i) % 65536 := by
  simp [ea]

/-- No block of at most 65536 words touches a word twice (R121). -/
theorem ea_injective (start : Word) {i j : Nat} (hi : i < 65536) (hj : j < 65536)
    (h : ea start i = ea start j) : i = j := by
  have h' := congrArg BitVec.toNat h
  rw [ea_toNat, ea_toNat] at h'
  omega

end Sys2Proof.Machine
end

