-- ==== Sys2Proof/Laws/Bank.lean ====
section
/-! SUPPORT. Laws of one bank: a write is read back, leaves every other word alone, and keeps the
canonical form. The read-after-write laws hold of every list of cells, canonical or not. -/

namespace Sys2Proof.Machine

@[simp] theorem Bank.find_nil (k : Nat) : Bank.find k [] = unsetReadValue := rfl

@[simp] theorem Bank.read_nil (a : Word) : Bank.read [] a = unsetReadValue := rfl

theorem Bank.find_erase_same (k : Nat) (b : Bank) :
    Bank.find k (Bank.erase k b) = unsetReadValue := by
  induction b with
  | nil => rfl
  | cons c rest ih => by_cases h : c.1 = k <;> simp [Bank.erase, Bank.find, h, ih]

theorem Bank.find_erase_other {k j : Nat} (hj : j ≠ k) (b : Bank) :
    Bank.find j (Bank.erase k b) = Bank.find j b := by
  induction b with
  | nil => rfl
  | cons c rest ih =>
    by_cases h : c.1 = k
    · have : c.1 ≠ j := by omega
      simp [Bank.erase, Bank.find, h, ih, Ne.symm hj]
    · simp [Bank.erase, Bank.find, h, ih]

theorem Bank.mem_erase {k : Nat} {b : Bank} {c : Nat × Word} :
    c ∈ Bank.erase k b ↔ c ∈ b ∧ c.1 ≠ k := by
  induction b with
  | nil => simp [Bank.erase]
  | cons d rest ih =>
    by_cases h : d.1 = k
    · simp only [Bank.erase, h, if_true, ih, List.mem_cons]
      constructor
      · rintro ⟨hm, hk⟩; exact ⟨.inr hm, hk⟩
      · rintro ⟨rfl | hm, hk⟩
        · exact absurd h hk
        · exact ⟨hm, hk⟩
    · simp only [Bank.erase, h, if_false, ih, List.mem_cons]
      constructor
      · rintro (rfl | ⟨hm, hk⟩)
        · exact ⟨.inl rfl, h⟩
        · exact ⟨.inr hm, hk⟩
      · rintro ⟨rfl | hm, hk⟩
        · exact .inl rfl
        · exact .inr ⟨hm, hk⟩

theorem Bank.find_insert_same {k : Nat} {v : Word} {b : Bank} (h : ∀ c ∈ b, c.1 ≠ k) :
    Bank.find k (Bank.insert k v b) = v := by
  induction b with
  | nil => simp [Bank.insert, Bank.find]
  | cons c rest ih =>
    have hc := h c (by simp)
    by_cases hk : k < c.1
    · simp [Bank.insert, Bank.find, hk]
    · simp [Bank.insert, Bank.find, hk, hc, ih fun d hd => h d (by simp [hd])]

theorem Bank.find_insert_other {k j : Nat} (hj : j ≠ k) (v : Word) (b : Bank) :
    Bank.find j (Bank.insert k v b) = Bank.find j b := by
  induction b with
  | nil => simp [Bank.insert, Bank.find, Ne.symm hj]
  | cons c rest ih =>
    by_cases hk : k < c.1
    · simp [Bank.insert, Bank.find, hk, Ne.symm hj]
    · simp [Bank.insert, Bank.find, hk, ih]

theorem Bank.mem_insert {k : Nat} {v : Word} {b : Bank} {c : Nat × Word} :
    c ∈ Bank.insert k v b ↔ c = (k, v) ∨ c ∈ b := by
  induction b with
  | nil => simp [Bank.insert]
  | cons d rest ih =>
    by_cases hk : k < d.1
    · simp [Bank.insert, hk]
    · simp [Bank.insert, hk, ih, or_left_comm]

/-- A read after a write to the same address gives the word written (R124). -/
theorem Bank.read_write_same (b : Bank) (a v : Word) : (b.write a v).read a = v := by
  unfold Bank.write Bank.read
  split
  · rename_i h; rw [Bank.find_erase_same, h]
  · exact Bank.find_insert_same fun c hc => (Bank.mem_erase.mp hc).2

/-- A write leaves every other word alone (R127). -/
theorem Bank.read_write_other (b : Bank) {a k : Word} (h : k ≠ a) (v : Word) :
    (b.write a v).read k = b.read k := by
  have hk : k.toNat ≠ a.toNat := fun e => h (BitVec.eq_of_toNat_eq e)
  unfold Bank.write Bank.read
  split
  · exact Bank.find_erase_other hk b
  · rw [Bank.find_insert_other hk, Bank.find_erase_other hk]

theorem Bank.nil_wf : Bank.Wf [] := by simp [Bank.Wf]

theorem Bank.erase_wf (k : Nat) {b : Bank} (h : Bank.Wf b) : Bank.Wf (Bank.erase k b) := by
  refine ⟨?_, fun c hc => h.2 c (Bank.mem_erase.mp hc).1⟩
  obtain ⟨hs, hv⟩ := h
  clear hv
  induction b with
  | nil => exact .nil
  | cons c rest ih =>
    rw [List.pairwise_cons] at hs
    by_cases hk : c.1 = k
    · simpa [Bank.erase, hk] using ih hs.2
    · simp only [Bank.erase, hk, if_false, List.pairwise_cons]
      exact ⟨fun d hd => hs.1 d (Bank.mem_erase.mp hd).1, ih hs.2⟩

theorem Bank.insert_wf {k : Nat} {v : Word} {b : Bank} (h : Bank.Wf b) (hk : k < 65536)
    (hv : v ≠ 0) (hb : ∀ c ∈ b, c.1 ≠ k) : Bank.Wf (Bank.insert k v b) := by
  refine ⟨?_, ?_⟩
  · obtain ⟨hs, -⟩ := h
    induction b with
    | nil => simp [Bank.insert]
    | cons c rest ih =>
      rw [List.pairwise_cons] at hs
      have hc := hb c (by simp)
      by_cases hlt : k < c.1
      · simp only [Bank.insert, hlt, if_true, List.pairwise_cons, List.mem_cons]
        refine ⟨?_, hs⟩
        rintro d (rfl | hd)
        · exact hlt
        · exact Nat.lt_trans hlt (hs.1 d hd)
      · simp only [Bank.insert, hlt, if_false, List.pairwise_cons]
        refine ⟨fun d hd => ?_, ih (fun d hd => hb d (by simp [hd])) hs.2⟩
        rcases Bank.mem_insert.mp hd with rfl | hd
        · show c.1 < k
          omega
        · exact hs.1 d hd
  · intro c hc
    rcases Bank.mem_insert.mp hc with rfl | hc
    · exact ⟨hk, hv⟩
    · exact h.2 c hc

/-- A write keeps the canonical form. -/
theorem Bank.write_wf {b : Bank} (h : Bank.Wf b) (a v : Word) : Bank.Wf (b.write a v) := by
  unfold Bank.write
  split
  · exact Bank.erase_wf _ h
  · rename_i hv
    exact Bank.insert_wf (Bank.erase_wf _ h) a.isLt hv fun c hc => (Bank.mem_erase.mp hc).2

/-- A block write keeps the canonical form. -/
theorem Bank.writeFrom_wf (start : Word) (vs : List Word) (i : Nat) {b : Bank} (h : Bank.Wf b) :
    Bank.Wf (Bank.writeFrom start i vs b) := by
  induction vs generalizing i b with
  | nil => exact h
  | cons v vs ih => exact ih _ (Bank.write_wf h _ _)

theorem Bank.foldl_write_wf (t : InitTable) {b : Bank} (h : Bank.Wf b) :
    Bank.Wf (t.foldl (fun b p => b.write p.1 p.2) b) := by
  induction t generalizing b with
  | nil => exact h
  | cons p t ih => exact ih (Bank.write_wf h _ _)

/-- The bank `initialize()` leaves is in canonical form. -/
theorem Bank.ofTable_wf (t : InitTable) : Bank.Wf (Bank.ofTable t) :=
  Bank.foldl_write_wf t Bank.nil_wf

/-- A block write leaves the words outside the block alone. -/
theorem Bank.read_writeFrom_outside (start : Word) (vs : List Word) (i : Nat) (b : Bank) {k : Word}
    (h : ∀ j, j < vs.length → k ≠ ea start (i + j)) :
    (Bank.writeFrom start i vs b).read k = b.read k := by
  induction vs generalizing i b with
  | nil => rfl
  | cons v vs ih =>
    rw [Bank.writeFrom, ih, Bank.read_write_other]
    · simpa using h 0 (by simp)
    · intro j hj
      have := h (j + 1) (by simpa using hj)
      rwa [show i + (j + 1) = i + 1 + j by omega] at this

/-- A block write of fewer than 65537 words puts each value at its address. -/
theorem Bank.read_writeFrom_inside (start : Word) (vs : List Word) (i : Nat) (b : Bank)
    (hn : i + vs.length ≤ 65536) (j : Nat) (hj : j < vs.length) :
    (Bank.writeFrom start i vs b).read (ea start (i + j)) = vs[j] := by
  induction vs generalizing i b j with
  | nil => simp at hj
  | cons v vs ih =>
    simp only [List.length_cons] at hn hj
    rw [Bank.writeFrom]
    cases j with
    | zero =>
      rw [Bank.read_writeFrom_outside]
      · simpa using Bank.read_write_same b _ v
      · intro k hk e
        have := ea_injective start (by omega) (by omega) e
        omega
    | succ j =>
      have := ih (i + 1) (b.write (ea start i) v) (by omega) j (by omega)
      rw [show i + (j + 1) = i + 1 + j by omega]
      simpa using this

@[simp] theorem Bank.readBlock_length (b : Bank) (start : Word) (n : Nat) :
    (b.readBlock start n).length = n := by
  simp [Bank.readBlock]

end Sys2Proof.Machine
end

