-- ==== Sys2Proof/Laws/State.lean ====
section
/-! SUPPORT. What each update of the state does to each field: one lemma per field per update, all true
by unfolding the record update. -/

namespace Sys2Proof.Machine

/-! ### writeHolding -/

@[simp] theorem State.writeHolding_holding (s : State) (a v : Word) :
    (s.writeHolding a v).holding = s.holding.write a v := rfl
@[simp] theorem State.writeHolding_input (s : State) (a v : Word) :
    (s.writeHolding a v).input = s.input := rfl
@[simp] theorem State.writeHolding_phase (s : State) (a v : Word) :
    (s.writeHolding a v).phase = s.phase := rfl
@[simp] theorem State.writeHolding_crcAcc (s : State) (a v : Word) :
    (s.writeHolding a v).crcAcc = s.crcAcc := rfl
@[simp] theorem State.writeHolding_ingress (s : State) (a v : Word) :
    (s.writeHolding a v).ingress = s.ingress := rfl
@[simp] theorem State.writeHolding_resetPending (s : State) (a v : Word) :
    (s.writeHolding a v).resetPending = s.resetPending := rfl
@[simp] theorem State.writeHolding_egress (s : State) (a v : Word) :
    (s.writeHolding a v).egress = s.egress := rfl
@[simp] theorem State.writeHolding_config (s : State) (a v : Word) :
    (s.writeHolding a v).config = s.config := rfl

/-! ### writeHoldingBlock -/

@[simp] theorem State.writeHoldingBlock_holding (s : State) (a : Word) (vs : List Word) :
    (s.writeHoldingBlock a vs).holding = Bank.writeFrom a 0 vs s.holding := rfl
@[simp] theorem State.writeHoldingBlock_input (s : State) (a : Word) (vs : List Word) :
    (s.writeHoldingBlock a vs).input = s.input := rfl
@[simp] theorem State.writeHoldingBlock_phase (s : State) (a : Word) (vs : List Word) :
    (s.writeHoldingBlock a vs).phase = s.phase := rfl
@[simp] theorem State.writeHoldingBlock_crcAcc (s : State) (a : Word) (vs : List Word) :
    (s.writeHoldingBlock a vs).crcAcc = s.crcAcc := rfl
@[simp] theorem State.writeHoldingBlock_ingress (s : State) (a : Word) (vs : List Word) :
    (s.writeHoldingBlock a vs).ingress = s.ingress := rfl
@[simp] theorem State.writeHoldingBlock_resetPending (s : State) (a : Word) (vs : List Word) :
    (s.writeHoldingBlock a vs).resetPending = s.resetPending := rfl
@[simp] theorem State.writeHoldingBlock_egress (s : State) (a : Word) (vs : List Word) :
    (s.writeHoldingBlock a vs).egress = s.egress := rfl
@[simp] theorem State.writeHoldingBlock_config (s : State) (a : Word) (vs : List Word) :
    (s.writeHoldingBlock a vs).config = s.config := rfl

/-! ### initialize -/

@[simp] theorem State.initialize_holding (s : State) :
    (s.initialize).holding = Bank.ofTable s.config.initHolding := rfl
@[simp] theorem State.initialize_input (s : State) :
    (s.initialize).input = Bank.ofTable s.config.initInput := rfl
@[simp] theorem State.initialize_phase (s : State) :
    (s.initialize).phase = s.phase := rfl
@[simp] theorem State.initialize_crcAcc (s : State) :
    (s.initialize).crcAcc = s.crcAcc := rfl
@[simp] theorem State.initialize_ingress (s : State) :
    (s.initialize).ingress = s.ingress := rfl
@[simp] theorem State.initialize_resetPending (s : State) :
    (s.initialize).resetPending = s.resetPending := rfl
@[simp] theorem State.initialize_egress (s : State) :
    (s.initialize).egress = s.egress := rfl
@[simp] theorem State.initialize_config (s : State) :
    (s.initialize).config = s.config := rfl

/-! ### crcInit -/

@[simp] theorem State.crcInit_holding (s : State) :
    (s.crcInit).holding = s.holding := rfl
@[simp] theorem State.crcInit_input (s : State) :
    (s.crcInit).input = s.input := rfl
@[simp] theorem State.crcInit_phase (s : State) :
    (s.crcInit).phase = s.phase := rfl
@[simp] theorem State.crcInit_crcAcc (s : State) :
    (s.crcInit).crcAcc = crcSeed := rfl
@[simp] theorem State.crcInit_ingress (s : State) :
    (s.crcInit).ingress = s.ingress := rfl
@[simp] theorem State.crcInit_resetPending (s : State) :
    (s.crcInit).resetPending = s.resetPending := rfl
@[simp] theorem State.crcInit_egress (s : State) :
    (s.crcInit).egress = s.egress := rfl
@[simp] theorem State.crcInit_config (s : State) :
    (s.crcInit).config = s.config := rfl

/-! ### crcFeed -/

@[simp] theorem State.crcFeed_holding (s : State) (b : Byte) :
    (s.crcFeed b).holding = s.holding := rfl
@[simp] theorem State.crcFeed_input (s : State) (b : Byte) :
    (s.crcFeed b).input = s.input := rfl
@[simp] theorem State.crcFeed_phase (s : State) (b : Byte) :
    (s.crcFeed b).phase = s.phase := rfl
@[simp] theorem State.crcFeed_crcAcc (s : State) (b : Byte) :
    (s.crcFeed b).crcAcc = crcFeedByte s.crcAcc b := rfl
@[simp] theorem State.crcFeed_ingress (s : State) (b : Byte) :
    (s.crcFeed b).ingress = s.ingress := rfl
@[simp] theorem State.crcFeed_resetPending (s : State) (b : Byte) :
    (s.crcFeed b).resetPending = s.resetPending := rfl
@[simp] theorem State.crcFeed_egress (s : State) (b : Byte) :
    (s.crcFeed b).egress = s.egress := rfl
@[simp] theorem State.crcFeed_config (s : State) (b : Byte) :
    (s.crcFeed b).config = s.config := rfl

/-! ### emit -/

@[simp] theorem State.emit_holding (s : State) (r : Result) :
    (s.emit r).holding = s.holding := rfl
@[simp] theorem State.emit_input (s : State) (r : Result) :
    (s.emit r).input = s.input := rfl
@[simp] theorem State.emit_phase (s : State) (r : Result) :
    (s.emit r).phase = s.phase := rfl
@[simp] theorem State.emit_crcAcc (s : State) (r : Result) :
    (s.emit r).crcAcc = s.crcAcc := rfl
@[simp] theorem State.emit_ingress (s : State) (r : Result) :
    (s.emit r).ingress = s.ingress := rfl
@[simp] theorem State.emit_resetPending (s : State) (r : Result) :
    (s.emit r).resetPending = s.resetPending := rfl
@[simp] theorem State.emit_egress (s : State) (r : Result) :
    (s.emit r).egress = s.egress ++ [r] := rfl
@[simp] theorem State.emit_config (s : State) (r : Result) :
    (s.emit r).config = s.config := rfl

/-! ### drop -/

@[simp] theorem State.drop_holding (s : State) (c : DropCause) :
    (s.drop c).holding = s.holding := rfl
@[simp] theorem State.drop_input (s : State) (c : DropCause) :
    (s.drop c).input = s.input := rfl
@[simp] theorem State.drop_phase (s : State) (c : DropCause) :
    (s.drop c).phase = s.phase := rfl
@[simp] theorem State.drop_crcAcc (s : State) (c : DropCause) :
    (s.drop c).crcAcc = s.crcAcc := rfl
@[simp] theorem State.drop_ingress (s : State) (c : DropCause) :
    (s.drop c).ingress = s.ingress := rfl
@[simp] theorem State.drop_resetPending (s : State) (c : DropCause) :
    (s.drop c).resetPending = s.resetPending := rfl
@[simp] theorem State.drop_egress (s : State) (c : DropCause) :
    (s.drop c).egress = s.egress ++ [.noReply c] := rfl
@[simp] theorem State.drop_config (s : State) (c : DropCause) :
    (s.drop c).config = s.config := rfl

/-! ### takeReset -/

@[simp] theorem State.takeReset_holding (s : State) :
    (s.takeReset).holding = Bank.ofTable s.config.initHolding := rfl
@[simp] theorem State.takeReset_input (s : State) :
    (s.takeReset).input = Bank.ofTable s.config.initInput := rfl
@[simp] theorem State.takeReset_phase (s : State) :
    (s.takeReset).phase = .ready := rfl
@[simp] theorem State.takeReset_crcAcc (s : State) :
    (s.takeReset).crcAcc = s.crcAcc := rfl
@[simp] theorem State.takeReset_ingress (s : State) :
    (s.takeReset).ingress = s.ingress := rfl
@[simp] theorem State.takeReset_resetPending (s : State) :
    (s.takeReset).resetPending = false := rfl
@[simp] theorem State.takeReset_egress (s : State) :
    (s.takeReset).egress = s.egress := rfl
@[simp] theorem State.takeReset_config (s : State) :
    (s.takeReset).config = s.config := rfl

/-! ### assertReset -/

@[simp] theorem State.assertReset_holding (s : State) :
    (s.assertReset).holding = s.holding := rfl
@[simp] theorem State.assertReset_input (s : State) :
    (s.assertReset).input = s.input := rfl
@[simp] theorem State.assertReset_phase (s : State) :
    (s.assertReset).phase = s.phase := rfl
@[simp] theorem State.assertReset_crcAcc (s : State) :
    (s.assertReset).crcAcc = s.crcAcc := rfl
@[simp] theorem State.assertReset_ingress (s : State) :
    (s.assertReset).ingress = s.ingress := rfl
@[simp] theorem State.assertReset_resetPending (s : State) :
    (s.assertReset).resetPending = true := rfl
@[simp] theorem State.assertReset_egress (s : State) :
    (s.assertReset).egress = s.egress := rfl
@[simp] theorem State.assertReset_config (s : State) :
    (s.assertReset).config = s.config := rfl

/-! ### terminate -/

@[simp] theorem State.terminate_holding (s : State) (h i : Bank) (x : Word) :
    (s.terminate h i x).holding = h := rfl
@[simp] theorem State.terminate_input (s : State) (h i : Bank) (x : Word) :
    (s.terminate h i x).input = i := rfl
@[simp] theorem State.terminate_phase (s : State) (h i : Bank) (x : Word) :
    (s.terminate h i x).phase = .unreset := rfl
@[simp] theorem State.terminate_crcAcc (s : State) (h i : Bank) (x : Word) :
    (s.terminate h i x).crcAcc = x := rfl
@[simp] theorem State.terminate_ingress (s : State) (h i : Bank) (x : Word) :
    (s.terminate h i x).ingress = s.ingress := rfl
@[simp] theorem State.terminate_resetPending (s : State) (h i : Bank) (x : Word) :
    (s.terminate h i x).resetPending = s.resetPending := rfl
@[simp] theorem State.terminate_egress (s : State) (h i : Bank) (x : Word) :
    (s.terminate h i x).egress = s.egress := rfl
@[simp] theorem State.terminate_config (s : State) (h i : Bank) (x : Word) :
    (s.terminate h i x).config = s.config := rfl

/-! ### placeFrame -/

@[simp] theorem State.placeFrame_holding (s : State) (f : Frame) :
    (s.placeFrame f).holding = s.holding := rfl
@[simp] theorem State.placeFrame_input (s : State) (f : Frame) :
    (s.placeFrame f).input = s.input := rfl
@[simp] theorem State.placeFrame_phase (s : State) (f : Frame) :
    (s.placeFrame f).phase = .ready := rfl
@[simp] theorem State.placeFrame_crcAcc (s : State) (f : Frame) :
    (s.placeFrame f).crcAcc = s.crcAcc := rfl
@[simp] theorem State.placeFrame_ingress (s : State) (f : Frame) :
    (s.placeFrame f).ingress = wireFrame s.config f :: s.ingress := rfl
@[simp] theorem State.placeFrame_resetPending (s : State) (f : Frame) :
    (s.placeFrame f).resetPending = false := rfl
@[simp] theorem State.placeFrame_egress (s : State) (f : Frame) :
    (s.placeFrame f).egress = s.egress := rfl
@[simp] theorem State.placeFrame_config (s : State) (f : Frame) :
    (s.placeFrame f).config = s.config := rfl

/-! ### State.resetWith -/

@[simp] theorem State.resetWith_holding (c : Config) : (State.resetWith c).holding = Bank.ofTable c.initHolding := rfl
@[simp] theorem State.resetWith_input (c : Config) : (State.resetWith c).input = Bank.ofTable c.initInput := rfl
@[simp] theorem State.resetWith_phase (c : Config) : (State.resetWith c).phase = .ready := rfl
@[simp] theorem State.resetWith_ingress (c : Config) : (State.resetWith c).ingress = [] := rfl
@[simp] theorem State.resetWith_resetPending (c : Config) : (State.resetWith c).resetPending = false := rfl
@[simp] theorem State.resetWith_egress (c : Config) : (State.resetWith c).egress = [] := rfl
@[simp] theorem State.resetWith_config (c : Config) : (State.resetWith c).config = c := rfl

/-! ### State.powerUp -/

@[simp] theorem State.powerUp_holding (c : Config) (h i : Bank) (x : Word) :
    (State.powerUp c h i x).holding = h := rfl
@[simp] theorem State.powerUp_input (c : Config) (h i : Bank) (x : Word) :
    (State.powerUp c h i x).input = i := rfl
@[simp] theorem State.powerUp_phase (c : Config) (h i : Bank) (x : Word) :
    (State.powerUp c h i x).phase = .unreset := rfl
@[simp] theorem State.powerUp_crcAcc (c : Config) (h i : Bank) (x : Word) :
    (State.powerUp c h i x).crcAcc = x := rfl
@[simp] theorem State.powerUp_ingress (c : Config) (h i : Bank) (x : Word) :
    (State.powerUp c h i x).ingress = [] := rfl
@[simp] theorem State.powerUp_resetPending (c : Config) (h i : Bank) (x : Word) :
    (State.powerUp c h i x).resetPending = false := rfl
@[simp] theorem State.powerUp_egress (c : Config) (h i : Bank) (x : Word) :
    (State.powerUp c h i x).egress = [] := rfl
@[simp] theorem State.powerUp_config (c : Config) (h i : Bank) (x : Word) :
    (State.powerUp c h i x).config = c := rfl

end Sys2Proof.Machine
end

