-- ==== Sys2Proof/Laws/Ops.lean ====
section
/-! SUPPORT. One lemma per shared operation that says everything the operation does. Users cite these
and leave the operations folded. -/

namespace Sys2Proof.Machine

/-- Feeding bytes changes the accumulator only, by the same steps as the function (R107). -/
theorem State.crcFeed_foldl (s : State) (bytes : Frame) :
    bytes.foldl State.crcFeed s = { s with crcAcc := bytes.foldl crcFeedByte s.crcAcc } := by
  induction bytes generalizing s with
  | nil => rfl
  | cons b bytes ih => rw [List.foldl_cons, ih]; rfl

theorem State.crcRun_eq (s : State) (bytes : Frame) :
    s.crcRun bytes = { s with crcAcc := crc16 bytes } := by
  rw [State.crcRun, State.crcFeed_foldl]; rfl

/-- A reply changes the accumulator and the results, nothing else. -/
theorem State.sendReply_eq (s : State) (p : Frame) :
    s.sendReply p =
      { s with
        crcAcc := crc16 p
        egress := s.egress ++ [.reply (p ++ crcTrailer (crc16 p))] } := by
  rw [State.sendReply, State.crcRun_eq]; rfl

/-- A read frame ends in one of two ways. -/
theorem State.answerRead_cases (s : State) (fc : FunctionCode) (u : Byte) (a n : Word) :
    (byteCountDrops s.config n = true ∧ s.answerRead fc u a n = s.drop .byteCountRange) ∨
    (byteCountDrops s.config n = false ∧
      s.answerRead fc u a n =
        s.sendReply (readPdu fc u ((s.bank (bankSelect fc)).readBlock a n.toNat))) := by
  unfold State.answerRead
  split <;> simp_all

theorem byteCountDrops_eq_true (c : Config) (n : Word) :
    byteCountDrops c n = true ↔ 127 < n.toNat ∧ c.byteCountPolicy = .drop := by
  simp [byteCountDrops]; omega

theorem byteCountDrops_eq_false (c : Config) (n : Word) :
    byteCountDrops c n = false ↔ n.toNat ≤ 127 ∨ c.byteCountPolicy = .truncate := by
  cases h : c.byteCountPolicy <;> (simp [byteCountDrops, h]; try omega)

theorem State.deliver_cases (s : State) (f : Frame) :
    (deliverable s.config f = true ∧ s.deliver f = { s with ingress := s.ingress ++ [f] }) ∨
    (deliverable s.config f = false ∧ s.deliver f = s) := by
  unfold State.deliver
  split <;> simp_all

/-- Deliveries one after another: those within the bound join the queue last, in order. -/
theorem State.deliver_foldl (s : State) (fs : List Frame) :
    fs.foldl State.deliver s = { s with ingress := s.ingress ++ fs.filter (deliverable s.config) } := by
  induction fs generalizing s with
  | nil => simp
  | cons f fs ih =>
    rw [List.foldl_cons, ih]
    obtain ⟨h, e⟩ | ⟨h, e⟩ := s.deliver_cases f <;> simp [e, h]

/-- The reset that follows a termination leaves the reset state, but for what is not the block's and the
accumulator. -/
theorem State.takeReset_terminate (s : State) (h i : Bank) (x : Word) :
    (s.terminate h i x).takeReset =
      { State.resetWith s.config with crcAcc := x, ingress := s.ingress, egress := s.egress } := rfl

/-! ## Every operation on the banks keeps their canonical form -/

theorem State.writeHolding_wf {s : State} (h : Bank.Wf s.holding) (a v : Word) :
    Bank.Wf (s.writeHolding a v).holding := Bank.write_wf h a v

theorem State.writeHoldingBlock_wf {s : State} (h : Bank.Wf s.holding) (a : Word) (vs : List Word) :
    Bank.Wf (s.writeHoldingBlock a vs).holding := Bank.writeFrom_wf a vs 0 h

theorem State.initialize_holding_wf (s : State) : Bank.Wf s.initialize.holding :=
  Bank.ofTable_wf _

theorem State.initialize_input_wf (s : State) : Bank.Wf s.initialize.input := Bank.ofTable_wf _

theorem State.reset_holding_wf : Bank.Wf State.reset.holding := Bank.ofTable_wf _

theorem State.reset_input_wf : Bank.Wf State.reset.input := Bank.ofTable_wf _

end Sys2Proof.Machine
end

