-- ==== Sys2Proof/Laws/PerInstr.lean ====
section
/-! SUPPORT. Statements about an instruction as syntax, one lemma per constructor. -/

namespace Sys2Proof.Laws

/-- The encoding of a well-formed instruction has exactly its required length (R73). -/
def EncodedLength.Statement (i : Instr) : Prop :=
  i.wf = true → (encode i).length = i.requiredLength

theorem EncodedLength.rdh (u : Byte) (a n : Word) : EncodedLength.Statement (.rdh u a n) :=
  fun _ => rfl

theorem EncodedLength.rdi (u : Byte) (a n : Word) : EncodedLength.Statement (.rdi u a n) :=
  fun _ => rfl

theorem EncodedLength.wrs (u : Byte) (a v : Word) : EncodedLength.Statement (.wrs u a v) :=
  fun _ => rfl

theorem EncodedLength.wrm (u : Byte) (a n : Word) (b : Byte) (vs : List Word) :
    EncodedLength.Statement (.wrm u a n b vs) := by
  intro h
  have hn : vs.length = n.toNat := by simpa [Instr.wf] using h
  simp [encode, Instr.requiredLength, hn]
  omega

end Sys2Proof.Laws
end

