-- ==== Sys2Proof/Laws/Step.lean ====
section
/-! SUPPORT. What one step can do, said once: the cases of the fetch, of an instruction and of a step. -/

namespace Sys2Proof.Machine

/-- What the fetch finds, and when. -/
theorem State.fetch_cases (s : State) :
    (s.resetPending = true ∧ s.fetch = .reset) ∨
    (s.resetPending = false ∧ (s.phase = .unreset ∨ s.ingress = []) ∧ s.fetch = .wait) ∨
    (∃ f rest i, s.resetPending = false ∧ s.phase = .ready ∧ s.ingress = f :: rest ∧
      parse s.config f = .ok i ∧ s.fetch = .run i { s with ingress := rest }) ∨
    (∃ f rest c, s.resetPending = false ∧ s.phase = .ready ∧ s.ingress = f :: rest ∧
      parse s.config f = .error c ∧ s.fetch = .dropped c { s with ingress := rest }) := by
  unfold State.fetch
  cases hr : s.resetPending with
  | true => simp
  | false =>
    cases hp : s.phase with
    | unreset => simp
    | ready =>
      cases hi : s.ingress with
      | nil => simp
      | cons f rest => cases hf : parse s.config f <;> simp [hf]

/-- What an instruction can do: drop the frame, reply without a write, or write `H` and reply. -/
theorem exec_cases (i : Instr) (s t : State) (h : exec i s = .next t) :
    t = s.drop .byteCountRange ∨ (∃ p, t = s.sendReply p) ∨
    (∃ a v p, t = (s.writeHolding a v).sendReply p) ∨
    (∃ a vs p, t = (s.writeHoldingBlock a vs).sendReply p) := by
  cases i with
  | rdh u a n =>
    cases h
    rcases s.answerRead_cases .readHolding u a n with ⟨-, e⟩ | ⟨-, e⟩ <;> rw [e]
    · exact .inl rfl
    · exact .inr (.inl ⟨_, rfl⟩)
  | rdi u a n =>
    cases h
    rcases s.answerRead_cases .readInput u a n with ⟨-, e⟩ | ⟨-, e⟩ <;> rw [e]
    · exact .inl rfl
    · exact .inr (.inl ⟨_, rfl⟩)
  | wrs u a v => cases h; exact .inr (.inr (.inl ⟨a, v, _, rfl⟩))
  | wrm u a n b vs =>
    simp only [exec, execWrm] at h
    split at h
    · cases h; exact .inr (.inr (.inr ⟨a, vs, _, rfl⟩))
    · cases h

/-- What a step can do, and when. -/
theorem step_cases (s : State) :
    (s.resetPending = true ∧ step s = .next s.takeReset) ∨
    (s.resetPending = false ∧ (s.phase = .unreset ∨ s.ingress = []) ∧ step s = .next s) ∨
    (∃ f rest i, s.resetPending = false ∧ s.phase = .ready ∧ s.ingress = f :: rest ∧
      parse s.config f = .ok i ∧ step s = exec i { s with ingress := rest }) ∨
    (∃ f rest c, s.resetPending = false ∧ s.phase = .ready ∧ s.ingress = f :: rest ∧
      parse s.config f = .error c ∧
      step s = .next (State.drop { s with ingress := rest } c)) := by
  unfold step
  rcases s.fetch_cases with ⟨h, e⟩ | ⟨h, h', e⟩ | ⟨f, rest, i, h⟩ | ⟨f, rest, c, h⟩
  · exact .inl ⟨h, by rw [e]⟩
  · exact .inr (.inl ⟨h, h', by rw [e]⟩)
  · exact .inr (.inr (.inl ⟨f, rest, i, h.1, h.2.1, h.2.2.1, h.2.2.2.1, by rw [h.2.2.2.2]⟩))
  · exact .inr (.inr (.inr ⟨f, rest, c, h.1, h.2.1, h.2.2.1, h.2.2.2.1, by rw [h.2.2.2.2]⟩))

end Sys2Proof.Machine
end

