-- ==== Sys2Proof/Tests/Slice0.lean ====
section
/-! SUPPORT. The model's own tests. Expected values are the spec's examples and vectors
(95_test_vectors.md), named beside each test; the witnesses show that the hypotheses of each statement
can be met together. -/

namespace Sys2Proof.Tests

open Sys2Proof Sys2Proof.Machine

/-! ## Well-formedness: the one check, refused -/

theorem test_wf_refuses_wrm_with_missing_value : (Instr.wrm 1 300 3 4 [10, 20]).wf = false := by decide

theorem test_wf_refuses_wrm_with_extra_value : (Instr.wrm 1 300 1 4 [10, 20]).wf = false := by decide

/-! ## Decoding: words written out from the formats (R62 to R64), and rejections -/

/-- R62, V-RDH-1: `uuuuuuuu 00000011 aaaaaaaa aaaaaaaa nnnnnnnn nnnnnnnn`. -/
theorem test_decode_rdh :
    decode [0b00000001, 0b00000011, 0b00000001, 0b00011010, 0b00000000, 0b00000001] =
      .ok (.rdh 1 282 1) := by decide

/-- R62, X7. -/
theorem test_decode_rdi :
    decode [0b00000001, 0b00000100, 0b00100111, 0b00001111, 0b00000000, 0b00000001] =
      .ok (.rdi 1 9999 1) := by decide

/-- R63, X3. -/
theorem test_decode_wrs :
    decode [0b00000001, 0b00000110, 0b00000001, 0b00011010, 0b00000000, 0b01100100] =
      .ok (.wrs 1 0x011A 100) := by decide

/-- R64, X4. -/
theorem test_decode_wrm :
    decode [0b00000001, 0b00010000, 0b00000001, 0b00101100, 0b00000000, 0b00000010, 0b00000100,
        0b00000000, 0b00001010, 0b00000000, 0b00010100] =
      .ok (.wrm 1 300 2 4 [10, 20]) := by decide

/-- R65, V-WRM-8: bytes past the required length are ignored. -/
theorem test_decode_wrm_trailing :
    decode [0x01, 0x10, 0x00, 0x50, 0x00, 0x01, 0x02, 0x00, 0x05, 0xEE, 0xEE] =
      .ok (.wrm 1 80 1 2 [5]) := by decide

/-- V-DROP-3, V-DROP-6, V-RDH-9, V-WRM-4, V-WRM-5. -/
theorem test_decode_rejects :
    decode [0x01, 0x99, 0x00] = .error .shortFrame ∧
    decode [0x01, 0x83, 0x00, 0x00, 0x00, 0x01] = .error .unsupportedFc ∧
    decode [0x01, 0x03, 0x01, 0x1A] = .error .underlength ∧
    decode [0x01, 0x10, 0x00, 0x28, 0x00, 0x00] = .error .underlength ∧
    decode [0x01, 0x10, 0x00, 0x32, 0x00, 0x02, 0x04, 0x00, 0x01, 0x00] = .error .underlength := by
  decide

/-- The assembler's `WRM 1, 300, [10, 20]` (R75, X4). -/
theorem test_encode_assembled_wrm :
    encode (assembleWrm 1 300 [10, 20]) =
      [0x01, 0x10, 0x01, 0x2C, 0x00, 0x02, 0x04, 0x00, 0x0A, 0x00, 0x14] := by decide

/-- The rows of the opcode table by their `match` alone, and one with every operand bit (R71). -/
theorem test_decode_table_words :
    decodeTableWord 16 0x0003 = some (.rdh 0 0 0) ∧ decodeTableWord 16 0x0004 = some (.rdi 0 0 0) ∧
    decodeTableWord 16 0x0006 = some (.wrs 0 0 0) ∧ decodeTableWord 16 0x0010 = some (.wrm 0 0 0 0 []) ∧
    decodeTableWord 16 0x0005 = none ∧
    decodeTableWord 48 0x0001_011A_0103 = some (.rdh 1 282 1) := by decide

/-! ## CRC generator (95_test_vectors.md 2.1) -/

/-- V-CRC-5, V-CRC-6. -/
theorem test_crc_vectors :
    crc16 [0x31, 0x32, 0x33, 0x34, 0x35, 0x36, 0x37, 0x38, 0x39] = 0x4B37 ∧
    crc16 [0x01, 0x03, 0x02, 0x04, 0xD2] = 0xD93A := by decide +kernel

/-! ## One step on a small state -/

/-- The bank of the RDH vectors (2.3). -/
def readBank : Bank := [(0, 0xFFFF), (10, 0x00FF), (11, 0xFF00), (282, 1234), (65535, 0x8001)]

/-- A ready state with the given banks and one frame in the queue. -/
def taking (holding input : Bank) (f : Frame) : State :=
  { State.reset with holding := holding, input := input, ingress := [f] }

/-- The results and the holding bank after one step. -/
def afterStep (s : State) : List Result × Bank :=
  match step s with
  | .next t => (t.egress, t.holding)
  | _ => ([], [])

/-- V-RDH-3: a block that wraps past address 65535. -/
theorem test_rdh_wraps :
    afterStep (taking readBank [] [0x01, 0x03, 0xFF, 0xFF, 0x00, 0x02]) =
      ([.reply [0x01, 0x03, 0x04, 0x80, 0x01, 0xFF, 0xFF, 0x83, 0x83]], readBank) := by
  decide +kernel

/-- V-RDH-11: 128 words are too many under the default policy. -/
theorem test_rdh_range :
    afterStep (taking readBank [] [0x01, 0x03, 0x00, 0x00, 0x00, 0x80]) =
      ([.noReply .byteCountRange], readBank) := by decide +kernel

/-- V-RDI-2: the input bank, wrapping. -/
theorem test_rdi_wraps :
    afterStep (taking [(7, 7)] [(0, 0x0001), (7, 0x1234), (65535, 0xABCD)]
        [0x01, 0x04, 0xFF, 0xFF, 0x00, 0x02]) =
      ([.reply [0x01, 0x04, 0x04, 0xAB, 0xCD, 0x00, 0x01, 0x8B, 0x9F]], [(7, 7)]) := by
  decide +kernel

/-- V-RDI-3: address 9999 was never initialized and reads 0. -/
theorem test_rdi_unset :
    afterStep (taking [] [(0, 1)] [0x01, 0x04, 0x27, 0x0F, 0x00, 0x01]) =
      ([.reply [0x01, 0x04, 0x02, 0x00, 0x00, 0xB9, 0x30]], []) := by decide +kernel

/-- V-WRS-1: writing 0 empties the bank. -/
theorem test_wrs_zero :
    afterStep (taking [(5, 5)] [(5, 0x5555)] [0x01, 0x06, 0x00, 0x05, 0x00, 0x00]) =
      ([.reply [0x01, 0x06, 0x00, 0x05, 0x00, 0x00, 0x99, 0xCB]], []) := by decide +kernel

/-- V-WRS-3: the last address. -/
theorem test_wrs_last_address :
    afterStep (taking [(0, 0xFFFF)] [] [0x03, 0x06, 0xFF, 0xFF, 0x80, 0x00]) =
      ([.reply [0x03, 0x06, 0xFF, 0xFF, 0x80, 0x00, 0xE9, 0xCC]], [(0, 0xFFFF), (65535, 0x8000)]) := by
  decide +kernel

/-- V-WRM-2: a block that wraps. -/
theorem test_wrm_wraps :
    afterStep (taking [(300, 10), (301, 20)] []
        [0x01, 0x10, 0xFF, 0xFF, 0x00, 0x02, 0x04, 0x12, 0x34, 0x56, 0x78]) =
      ([.reply [0x01, 0x10, 0xFF, 0xFF, 0x00, 0x02, 0x41, 0xEC]],
        [(0, 0x5678), (300, 10), (301, 20), (65535, 0x1234)]) := by decide +kernel

/-- V-WRM-6: the byte count 0x99 is ignored. -/
theorem test_wrm_byte_count_ignored :
    afterStep (taking [] [] [0x01, 0x10, 0x00, 0x3C, 0x00, 0x01, 0x99, 0xAB, 0xCD]) =
      ([.reply [0x01, 0x10, 0x00, 0x3C, 0x00, 0x01, 0xC1, 0xC5]], [(60, 0xABCD)]) := by
  decide +kernel

/-- A state whose block checks request CRCs. -/
def checking (holding : Bank) (f : Frame) : State :=
  { taking holding [] f with config := { Config.default with checkRequestCrc := true } }

/-- V-CHK-1, V-CHK-2, V-CHK-4. -/
theorem test_request_crc :
    (afterStep (checking [(282, 1234)] [0x01, 0x03, 0x01, 0x1A, 0x00, 0x01, 0xA4, 0x31])).1 =
      [.reply [0x01, 0x03, 0x02, 0x04, 0xD2, 0x3A, 0xD9]] ∧
    (afterStep (checking [(282, 1234)] [0x01, 0x03, 0x01, 0x1A, 0x00, 0x01, 0x00, 0x00])).1 =
      [.noReply .reqCrcMismatch] ∧
    (afterStep (checking [(282, 1234)] [0x01, 0x03, 0x00, 0x20, 0xF0])).1 =
      [.noReply .shortFrame] := by decide +kernel

/-- A state whose block truncates the byte count. -/
def truncating (f : Frame) : State :=
  { taking [] [] f with config := { Config.default with byteCountPolicy := .truncate } }

/-- V-TRUNC-1: 128 words under `Truncate` are answered with 261 bytes and a byte count of 0. -/
theorem test_truncate :
    (afterStep (truncating [0x01, 0x03, 0x00, 0x00, 0x00, 0x80])).1.map (fun
      | .reply r => (r.take 3, r.length)
      | .noReply _ => ([], 0)) = [([0x01, 0x03, 0x00], 261)] := by decide +kernel

/-- P4: a reset restores the table; V-RF-6: one address in both tables sets a word in each bank. -/
theorem test_reset_restores :
    afterStep { State.reset with
        holding := [(5, 9)], resetPending := true,
        config := { Config.default with initHolding := [(282, 1234)], initInput := [(282, 7)] } } =
      ([], [(282, 1234)]) := by decide +kernel

/-! ## The hypotheses of the statements can be met -/

/-- The frames of the witnesses. -/
def rdhFrame : Frame := [0x01, 0x03, 0x01, 0x1A, 0x00, 0x01]

def wrsFrame : Frame := [0x01, 0x06, 0x01, 0x1A, 0x00, 0x64]

def wrmFrame : Frame := [0x01, 0x10, 0x00, 0x3C, 0x00, 0x01, 0x99, 0xAB, 0xCD]

theorem taking_takes (h i : Bank) (f : Frame) : (taking h i f).Takes f [] := ⟨rfl, rfl, rfl⟩

theorem checking_takes (h : Bank) (f : Frame) : (checking h f).Takes f [] := ⟨rfl, rfl, rfl⟩

theorem witness_DecodeOfEncodeIsIdentity :
    (Instr.wrm 1 300 2 4 [10, 20]).wf = true ∧ (Instr.wrm 1 40 0 0 []).wf = true := by decide

theorem witness_DecodedFrameStartsWithItsEncoding :
    decode wrmFrame = .ok (.wrm 1 60 1 0x99 [0xABCD]) := by decide

theorem witness_DecodeRejectsExactly :
    ([0x01, 0x99, 0x00] : Frame).length < 4 ∧
    ((4 : Nat) ≤ ([0x01, 0x99, 0x00, 0x00] : Frame).length ∧
      ([0x01, 0x99, 0x00, 0x00] : Frame).getD 1 0 ∉ ([0x03, 0x04, 0x06, 0x10] : List Byte)) ∧
    longEnough [0x01, 0x10, 0x00, 0x28, 0x00, 0x00] = false ∧
    longEnough [0x01, 0x10, 0x00, 0x28, 0x00, 0x00, 0x00] = true := by decide

theorem witness_CrcDetectsOneChangedByte : (0x00 : Byte) ≠ 0x80 := by decide

theorem witness_BlockAddressesWrapAndAreDistinct :
    0 < (0xFFFF : Word).toNat ∧ 65534 < (0xFFFF : Word).toNat ∧ (0 : Nat) ≠ 65534 ∧
    ea 0xFFFF 1 = 0 ∧ ea 0 65534 = 65534 := by decide

theorem witness_WriteHoldingIsIsolated : (0xFFFF : Word) ≠ 0 := by decide

theorem witness_BanksThatReadAlikeAreEqual :
    Bank.Wf readBank ∧ ∀ a, Bank.read readBank a = Bank.read readBank a := ⟨by decide, fun _ => rfl⟩

theorem witness_RewritingTheSameValueChangesNothing :
    Bank.Wf (taking readBank [] rdhFrame).holding := by decide

theorem witness_BlockWriteOrderIsUnobservable :
    Bank.Wf readBank ∧ ([10, 20] : List Word).length ≤ 65535 ∧
      [1, 0].Perm (List.range ([10, 20] : List Word).length) := by decide

/-- Two states that agree on the input bank and differ in the holding bank, read by RDI; and a write. -/
theorem witness_FunctionCodeSelectsBankAndDirection :
    directionSelect (Instr.rdi 1 0 1).functionCode = .read ∧
    (taking readBank [(0, 1)] wrsFrame).config = (taking [] [(0, 1)] rdhFrame).config ∧
    (∀ a, ((taking readBank [(0, 1)] wrsFrame).bank (bankSelect (Instr.rdi 1 0 1).functionCode)).read a =
      ((taking [] [(0, 1)] rdhFrame).bank (bankSelect (Instr.rdi 1 0 1).functionCode)).read a) ∧
    directionSelect (Instr.wrs 1 5 0).functionCode = .write ∧
    ∃ t, exec (.wrs 1 5 0) (taking readBank [] rdhFrame) = .next t :=
  ⟨rfl, rfl, fun _ => rfl, rfl, _, rfl⟩

theorem witness_RdhRepliesWithHoldingWords :
    (127 : Word).toNat ≤ 127 ∧ (truncating rdhFrame).config.byteCountPolicy = .truncate := by decide

theorem witness_RdiRepliesWithInputWords :
    (0 : Word).toNat ≤ 127 ∧ (truncating rdhFrame).config.byteCountPolicy = .truncate := by decide

theorem witness_ReadsOver127WordsFollowThePolicy :
    127 < (128 : Word).toNat ∧ (taking readBank [] rdhFrame).config.byteCountPolicy = .drop ∧
    (truncating rdhFrame).config.byteCountPolicy = .truncate := by decide

theorem witness_ReadReplyLengthAndByteCount :
    (127 : Word).toNat ≤ 127 ∧ Instr.rdi 1 0 127 ∈ [Instr.rdh 1 0 127, Instr.rdi 1 0 127] := by decide

theorem witness_WrsStoresAndEchoes : (0 : Word) ≠ 0xFFFF := by decide

theorem witness_WrmStoresAndEchoes :
    (Instr.wrm 1 0xFFFF 2 4 [0x1234, 0x5678]).wf = true ∧ (Instr.wrm 1 40 0 0 []).wf = true ∧
    1 < (2 : Word).toNat ∧ ∀ i, i < (2 : Word).toNat → (1 : Word) ≠ 0xFFFF + BitVec.ofNat 16 i := by
  decide

theorem witness_IllFormedWrmIsRefused : (Instr.wrm 1 300 3 4 [10, 20]).wf = false := by decide

theorem witness_ReadRequestsChangeNoState :
    ∃ t, exec (.rdh 1 282 1) (taking readBank [] rdhFrame) = .next t := ⟨_, rfl⟩

theorem witness_WriteRequestsChangeOnlyTheirWords :
    (∃ t, exec (.wrs 1 5 7) (taking readBank [] rdhFrame) = .next t) ∧
    (∃ t, exec (.wrm 1 0xFFFF 2 4 [0x1234, 0x5678]) (taking readBank [] rdhFrame) = .next t) ∧
    ∀ j, j < ([0x1234, 0x5678] : List Word).length → (1 : Word) ≠ ea 0xFFFF j :=
  ⟨⟨_, rfl⟩, ⟨_, rfl⟩, by decide⟩

theorem witness_StepRunsTheDecodedInstruction :
    (taking readBank [] rdhFrame).Takes rdhFrame [] ∧
    checkRequest (taking readBank [] rdhFrame).config rdhFrame = .ok rdhFrame ∧
    decode rdhFrame = .ok (.rdh 1 282 1) := ⟨taking_takes _ _ _, rfl, rfl⟩

theorem witness_PlacedTableWordRunsNext : decodeTableWord 16 0x0010 = some (.wrm 0 0 0 0 []) := by
  decide

theorem witness_ShortFramesAreDropped :
    (taking readBank [] []).Takes [] [] ∧ ([] : Frame).length < 4 ∧
    (taking readBank [] [1, 3, 0]).Takes [1, 3, 0] [] ∧ ([1, 3, 0] : Frame).length < 4 :=
  ⟨taking_takes _ _ _, by decide, taking_takes _ _ _, by decide⟩

theorem witness_UnsupportedFunctionCodesAreDropped :
    (taking readBank [] [1, 0x99, 0, 0]).Takes [1, 0x99, 0, 0] [] ∧
    checkRequest (taking readBank [] [1, 0x99, 0, 0]).config [1, 0x99, 0, 0] = .ok [1, 0x99, 0, 0] ∧
    4 ≤ ([1, 0x99, 0, 0] : Frame).length ∧
    ([1, 0x99, 0, 0] : Frame).getD 1 0 ∉ ([0x03, 0x04, 0x06, 0x10] : List Byte) :=
  ⟨taking_takes _ _ _, rfl, by decide, by decide⟩

theorem witness_UnderlengthFramesAreDropped :
    (taking readBank [] [1, 0x10, 0, 40, 0, 0]).Takes [1, 0x10, 0, 40, 0, 0] [] ∧
    checkRequest (taking readBank [] [1, 0x10, 0, 40, 0, 0]).config [1, 0x10, 0, 40, 0, 0] =
      .ok [1, 0x10, 0, 40, 0, 0] ∧
    4 ≤ ([1, 0x10, 0, 40, 0, 0] : Frame).length ∧
    ([1, 0x10, 0, 40, 0, 0] : Frame).getD 1 0 ∈ ([0x03, 0x04, 0x06, 0x10] : List Byte) ∧
    longEnough [1, 0x10, 0, 40, 0, 0] = false :=
  ⟨taking_takes _ _ _, rfl, by decide, by decide, by decide⟩

/-- Each branch: the check off, too short by one byte, a match (V-CHK-1) and a mismatch (V-CHK-2). -/
theorem witness_RequestCrcCheckIsOptional :
    ((taking readBank [] rdhFrame).Takes rdhFrame [] ∧
      (taking readBank [] rdhFrame).config.checkRequestCrc = false) ∧
    ((checking readBank [1, 3, 0, 0x20, 0xF0]).Takes [1, 3, 0, 0x20, 0xF0] [] ∧
      ([1, 3, 0, 0x20, 0xF0] : Frame).length < 6) ∧
    ((checking readBank (rdhFrame ++ [0xA4, 0x31])).Takes (rdhFrame ++ [0xA4, 0x31]) [] ∧
      crc16 rdhFrame = be16 0x31 0xA4) ∧
    ((checking readBank (rdhFrame ++ [0, 0])).Takes (rdhFrame ++ [0, 0]) [] ∧
      crc16 rdhFrame ≠ be16 0 0) :=
  ⟨⟨taking_takes _ _ _, rfl⟩, ⟨checking_takes _ _, by decide⟩,
    ⟨checking_takes _ _, by decide +kernel⟩, ⟨checking_takes _ _, by decide +kernel⟩⟩

theorem witness_RequestsWithTheirCrcPassTheCheck :
    4 ≤ ([1, 0x99, 0, 0] : Frame).length ∧ (checking [] []).config.checkRequestCrc = true := by decide

/-- A frame with its CRC, as a block that checks requests asks for. -/
def crcOf (f : Frame) : Frame := f ++ crcTrailer (crc16 f)

theorem witness_TrailingBytesAreIgnored :
    (taking readBank [] wrmFrame).Takes wrmFrame [] ∧
    checkRequest (taking readBank [] wrmFrame).config wrmFrame = .ok wrmFrame ∧
    checkRequest (taking readBank [] wrmFrame).config (wrmFrame ++ [0xEE]) = .ok (wrmFrame ++ [0xEE]) ∧
    4 ≤ wrmFrame.length ∧ longEnough wrmFrame = true :=
  ⟨taking_takes _ _ _, rfl, rfl, by decide, by decide⟩

theorem witness_TrailingBytesAreIgnored_checked :
    (checking readBank (crcOf rdhFrame)).Takes (crcOf rdhFrame) [] ∧
    checkRequest (checking readBank (crcOf rdhFrame)).config (crcOf rdhFrame) = .ok rdhFrame ∧
    checkRequest (checking readBank (crcOf rdhFrame)).config (crcOf (rdhFrame ++ [0xEE])) =
      .ok (rdhFrame ++ [0xEE]) ∧
    4 ≤ rdhFrame.length ∧ longEnough rdhFrame = true :=
  ⟨checking_takes _ _, by decide +kernel, by decide +kernel, by decide, by decide⟩

theorem witness_WrmByteCountHasNoEffect :
    (taking readBank [] wrmFrame).Takes wrmFrame [] ∧
    checkRequest (taking readBank [] wrmFrame).config wrmFrame = .ok wrmFrame ∧
    checkRequest (taking readBank [] wrmFrame).config (wrmFrame.set 6 2) = .ok (wrmFrame.set 6 2) ∧
    wrmFrame.getD 1 0 = 0x10 :=
  ⟨taking_takes _ _ _, rfl, rfl, rfl⟩

theorem witness_UnitIdIsOnlyEchoed :
    (taking readBank [] rdhFrame).Takes rdhFrame [] ∧
    checkRequest (taking readBank [] rdhFrame).config rdhFrame = .ok (1 :: rdhFrame.tail) ∧
    checkRequest (taking readBank [] rdhFrame).config (0 :: rdhFrame.tail) = .ok (0 :: rdhFrame.tail) ∧
    ∃ t, step (taking readBank [] rdhFrame) = .next t := ⟨taking_takes _ _ _, rfl, rfl, _, rfl⟩

/-- V-RDH-1. -/
theorem witness_ReplyStartsWithUnitIdAndFunctionCode :
    (taking readBank [] rdhFrame).Takes rdhFrame [] ∧
    ∃ t, step (taking readBank [] rdhFrame) = .next t ∧
      t.egress = (taking readBank [] rdhFrame).egress ++
        [.reply [0x01, 0x03, 0x02, 0x04, 0xD2, 0x3A, 0xD9]] :=
  ⟨taking_takes _ _ _, _, rfl, by decide +kernel⟩

theorem witness_DropsArePrecise :
    ∃ t, step (taking readBank [] [1, 0x99, 0, 0]) = .next t ∧
      t.egress = (taking readBank [] [1, 0x99, 0, 0]).egress ++ [.noReply .unsupportedFc] :=
  ⟨_, rfl, rfl⟩

theorem witness_ReadFrameSeesTheWriteBeforeIt :
    State.Takes { State.reset with
        ingress := [encode (.wrs 1 0x011A 100), encode (.rdh 1 0x011A 1)] }
      (wireFrame State.reset.config (encode (.wrs 1 0x011A 100)))
      [wireFrame State.reset.config (encode (.rdh 1 0x011A 1))] := ⟨rfl, rfl, rfl⟩

/-- V-DROP-3: short and unsupported, short wins; V-DROP-8: only the range. -/
theorem witness_DropCauseIsTheFirstThatApplies :
    (taking readBank [] [1, 0x99, 0]).Takes [1, 0x99, 0] [] ∧
    causeApplies Config.default [1, 0x99, 0] .shortFrame = true ∧
    causeApplies Config.default [1, 0x99, 0] .unsupportedFc = true ∧
    DropCause.code .shortFrame < DropCause.code .unsupportedFc ∧
    causeApplies Config.default [1, 3, 0, 0, 0, 0x80] .byteCountRange = true ∧
    causeApplies Config.default [1, 3, 0, 0, 0, 0x80] .underlength = false ∧
    causeApplies Config.default [1, 3, 0, 0, 0, 0x7F] .byteCountRange = false :=
  ⟨taking_takes _ _ _, by decide, by decide, by decide, by decide, by decide, by decide⟩

theorem witness_StepRefinesProcess : (taking readBank [] wrsFrame).Takes wrsFrame [] :=
  taking_takes _ _ _

theorem witness_RunProcessesTheQueueInOrder :
    (taking readBank [] wrsFrame).phase = .ready ∧
    (taking readBank [] wrsFrame).resetPending = false ∧
    1 ≤ (taking readBank [] wrsFrame).ingress.length := by decide

/-- Tables that meet R9, one address in both. -/
def tables : Config :=
  { Config.default with initHolding := [(282, 1234), (5, 6)], initInput := [(282, 7)] }

theorem witness_ResetInitializesBothBanks :
    tables.Wf ∧ { State.resetWith tables with resetPending := true }.resetPending = true ∧
    (6 : Word) ∉ tables.initHolding.map Prod.fst := by decide

theorem witness_ResetStateHoldsTheTables : tables.Wf := by decide

theorem witness_config_wf_refuses_9999 : ¬ Config.Wf { tables with initInput := [(9999, 1)] } := by
  decide

theorem witness_NoFrameIsTakenBeforeReset :
    (State.powerUp tables [(1, 1)] [] 0).phase = .unreset ∧
    (State.powerUp tables [(1, 1)] [] 0).resetPending = false := by decide

theorem witness_EmptyQueueHoldsTheState :
    State.reset.ingress = [] ∧ State.reset.resetPending = false := by decide

theorem witness_InputBankChangesOnlyByReset :
    ∃ t, step { State.reset with resetPending := true } = .next t := ⟨_, rfl⟩

theorem witness_FramesKeepPhaseAndParameters :
    ∃ t, step (taking readBank [] rdhFrame) = .next t := ⟨_, rfl⟩

theorem witness_AccumulatorIsHidden :
    ∃ t, step (taking readBank [] rdhFrame) = .next t := ⟨_, rfl⟩

theorem witness_EarlierResultsDoNotMatter :
    ∃ t, step (taking readBank [] wrsFrame) = .next t := ⟨_, rfl⟩

/-- A sound state that is not the reset state: written words, a frame in the queue, a reply given. -/
theorem sound_example :
    State.Inv { taking readBank [] rdhFrame with egress := [.reply [1, 3, 0, 0x20, 0xF0]] } := by
  refine ⟨by decide, by decide, by decide, fun _ => rfl, fun _ _ => rfl, ?_⟩
  intro r hr
  have hr : r = [1, 3, 0, 0x20, 0xF0] := by simpa using hr
  subst hr
  exact ⟨by decide, fun _ => by decide, by decide, by decide +kernel⟩

theorem witness_StepKeepsSoundStates :
    State.Inv { taking readBank [] rdhFrame with egress := [.reply [1, 3, 0, 0x20, 0xF0]] } ∧
    ∃ t, step { taking readBank [] rdhFrame with egress := [.reply [1, 3, 0, 0x20, 0xF0]] } = .next t :=
  ⟨sound_example, _, rfl⟩

theorem witness_ResetStatesAreSound : tables.Wf := by decide

theorem witness_HostActionsKeepSoundStates :
    State.Inv { taking readBank [] rdhFrame with egress := [.reply [1, 3, 0, 0x20, 0xF0]] } ∧
    Bank.Wf readBank := ⟨sound_example, by decide⟩

/-- A block whose host delivers at most 7 bytes, with one frame waiting. -/
def bounded : State :=
  { taking readBank [] rdhFrame with config := { Config.default with maxFrameLen := some 7 } }

/-- The bound itself is met, one byte more is not. -/
theorem witness_DeliveredFramesJoinTheQueueLast :
    bounded.config.maxFrameLen = some 7 ∧ (rdhFrame ++ [0xEE]).length ≤ 7 ∧
    7 < (rdhFrame ++ [0xEE, 0xEE]).length ∧
    State.reset.config.maxFrameLen = none := by decide

theorem test_deliver_keeps_arrival_order :
    ([[1], wrmFrame, [2]].foldl State.deliver bounded).ingress = [rdhFrame, [1], [2]] := by decide

theorem witness_LaterArrivalsDoNotChangeTheStep :
    (bounded.ingress ≠ [] ∧ ∃ t, step bounded = .next t) ∧
    ((State.powerUp tables [(1, 1)] [] 0).phase = .unreset ∧
      ∃ t, step (State.powerUp tables [(1, 1)] [] 0) = .next t) ∧
    (State.reset.assertReset.resetPending = true ∧ ∃ t, step State.reset.assertReset = .next t) :=
  ⟨⟨by decide, _, rfl⟩, ⟨rfl, _, rfl⟩, ⟨rfl, _, rfl⟩⟩

theorem witness_TerminationLosesTheBlockState :
    bounded.resetPending = false ∧ bounded.assertReset.resetPending = true := by decide

end Sys2Proof.Tests
end

section
/-! PROOFS. A request that decodes still decodes to the same instruction with bytes after it (R65), and a
long enough request of a supported function code decodes (R73). -/

namespace Sys2Proof.Machine

/-- Words are read from the front of the data: what follows them is not looked at (R64, R65). -/
theorem takeWords_append (n : Nat) (f extra : Frame) (h : 2 * n ≤ f.length) :
    takeWords n (f ++ extra) = takeWords n f := by
  induction n generalizing f with
  | zero => simp [takeWords]
  | succ n ih =>
    match f with
    | [] => simp at h
    | [_] => simp at h; omega
    | _ :: _ :: rest =>
      simp only [List.length_cons] at h
      simp [takeWords, ih rest (by omega)]

end Sys2Proof.Machine

namespace Sys2Proof

open Sys2Proof.Machine

/-- A WRM payload with all the data its count asks for decodes to the words of that data (R64, R73). -/
theorem decodePayload_writeMultiple_of_le {u x l b : Byte} {a : Word} {data : Frame}
    (h : 2 * (be16 x l).toNat ≤ data.length) :
    decodePayload .writeMultiple u a (x :: l :: b :: data) =
      .ok (.wrm u a (be16 x l) b (takeWords (be16 x l).toNat data)) := by
  simp only [decodePayload, if_neg (Nat.not_lt.mpr h)]

theorem decodePayload_append {fc : FunctionCode} {u : Byte} {a : Word} {p : Frame} {i : Instr}
    (extra : Frame) (h : decodePayload fc u a p = .ok i) :
    decodePayload fc u a (p ++ extra) = .ok i := by
  match p, fc with
  | [], _ => simp [decodePayload] at h
  | [_], _ => simp [decodePayload] at h
  | _ :: _ :: _, .readHolding => exact h
  | _ :: _ :: _, .readInput => exact h
  | _ :: _ :: _, .writeSingle => exact h
  | [_, _], .writeMultiple => simp [decodePayload] at h
  | x :: l :: b :: data, .writeMultiple =>
    have hlen : 2 * (be16 x l).toNat ≤ data.length := by
      by_contra hlt
      simp [decodePayload, Nat.lt_of_not_le hlt] at h
    have hlen' : 2 * (be16 x l).toNat ≤ (data ++ extra).length := by simp; omega
    simp only [List.cons_append]
    rw [decodePayload_writeMultiple_of_le hlen', takeWords_append _ _ _ hlen,
      ← decodePayload_writeMultiple_of_le hlen, h]

/-- Bytes after a request that decodes change nothing in what it decodes to (R65). -/
theorem decode_append {g : Frame} {i : Instr} (extra : Frame) (h : decode g = .ok i) :
    decode (g ++ extra) = .ok i := by
  match g with
  | [] | [_] | [_, _] | [_, _, _] => simp [decode] at h
  | u :: code :: ah :: al :: payload =>
    simp only [List.cons_append, decode] at h ⊢
    cases hfc : FunctionCode.ofByte code with
    | none => simp [hfc] at h
    | some fc =>
      simp only [hfc] at h ⊢
      exact decodePayload_append extra h

/-- The payload of a request that is long enough for its function code decodes (R73). -/
theorem exists_decodePayload_of_longEnough {u code ah al : Byte} {p : Frame} {fc : FunctionCode}
    (hfc : FunctionCode.ofByte code = some fc)
    (h : longEnough (u :: code :: ah :: al :: p) = true) :
    ∃ i, decodePayload fc u (be16 ah al) p = .ok i := by
  match p, fc with
  | [], .readHolding | [], .readInput | [], .writeSingle | [], .writeMultiple
  | [_], .readHolding | [_], .readInput | [_], .writeSingle | [_], .writeMultiple =>
    simp [longEnough, hfc] at h
  | [_, _], .writeMultiple =>
    simp [longEnough, hfc] at h
    omega
  | _ :: _ :: _, .readHolding => exact ⟨_, rfl⟩
  | _ :: _ :: _, .readInput => exact ⟨_, rfl⟩
  | _ :: _ :: _, .writeSingle => exact ⟨_, rfl⟩
  | x :: l :: b :: data, .writeMultiple =>
    have hlen : 2 * (be16 x l).toNat ≤ data.length := by
      simp [longEnough, hfc] at h
      omega
    exact ⟨_, decodePayload_writeMultiple_of_le hlen⟩

/-- A request with a whole header that is long enough decodes (R73). -/
theorem exists_decode_of_longEnough {g : Frame} (hlen : 4 ≤ g.length) (h : longEnough g = true) :
    ∃ i, decode g = .ok i := by
  match g with
  | [] | [_] | [_, _] | [_, _, _] => simp at hlen
  | u :: code :: ah :: al :: payload =>
    cases hfc : FunctionCode.ofByte code with
    | none => simp [longEnough, hfc] at h
    | some fc => simpa only [decode, hfc] using exists_decodePayload_of_longEnough hfc h

end Sys2Proof
end

section
/-! PROOFS. The step on a taken frame, in the terms of `checkRequest` and `decode` (R140, R141, R144). -/

namespace Sys2Proof.Machine

/-- A frame whose request bytes are `g` is parsed as `g` decodes (R141). -/
theorem parse_of_checkRequest {c : Config} {f g : Frame} (h : checkRequest c f = .ok g) :
    parse c f = decode g := by
  simp only [parse, h]

/-- With another frame in the place of the oldest, that one is taken. -/
theorem State.Takes.replaceOldest {s : State} {f : Frame} {rest : List Frame} (h : s.Takes f rest)
    (f' : Frame) : State.Takes { s with ingress := f' :: rest } f' rest :=
  ⟨h.ready, h.noReset, rfl⟩

/-- A taken frame that parses runs its instruction on the state without the frame (R140, R144). -/
theorem State.Takes.step_eq_exec {s : State} {f : Frame} {rest : List Frame} {i : Instr}
    (h : s.Takes f rest) (hp : parse s.config f = .ok i) :
    step s = exec i { s with ingress := rest } := by
  obtain ⟨hready, hreset, holdest⟩ := h
  simp [step, State.fetch, hreset, hready, holdest, hp]

end Sys2Proof.Machine
end

section
/-! PROOFS. Bytes after the required length of a request (R65). -/

namespace Sys2Proof.Proofs

open Sys2Proof Sys2Proof.Machine

/-- Settles O31: a long enough request decodes, it decodes alike with bytes after it, and the step runs
the same instruction on the same state. -/
theorem trailingBytesAreIgnored : Obligations.TrailingBytesAreIgnored := by
  intro s f f' g extra rest hf hg hg' hlen hlong
  obtain ⟨i, hi⟩ := exists_decode_of_longEnough hlen hlong
  have hparse : parse s.config f = .ok i := (parse_of_checkRequest hg).trans hi
  have hparse' : parse s.config f' = .ok i :=
    (parse_of_checkRequest hg').trans (decode_append extra hi)
  calc step { s with ingress := f' :: rest }
      = exec i { s with ingress := rest } := (hf.replaceOldest f').step_eq_exec hparse'
    _ = step s := (hf.step_eq_exec hparse).symm

end Sys2Proof.Proofs
end

section
/-! PROOFS. The CRC generator, fed in one pass or in parts (R107, R108). -/

namespace Sys2Proof.Machine

/-- Feeding `C` to an accumulator that holds `crc16(B)` gives `crc16(B ++ C)` (R108). -/
theorem foldl_crcFeedByte_crc16 (B C : Frame) : C.foldl crcFeedByte (crc16 B) = crc16 (B ++ C) :=
  List.foldl_append.symm

/-- The register form of R108: from an accumulator that holds `crc16(B)`, `crc_feed` over `C` leaves
`crc16(B ++ C)` in it and changes nothing else. -/
theorem State.crcFeed_foldl_crc16 (s : State) (B C : Frame) :
    C.foldl State.crcFeed { s with crcAcc := crc16 B } = { s with crcAcc := crc16 (B ++ C) } := by
  rw [State.crcFeed_foldl, foldl_crcFeedByte_crc16]

end Sys2Proof.Machine

namespace Sys2Proof.Proofs

open Sys2Proof Sys2Proof.Machine

/-- Settles O5: the run over `B` leaves `crc16(B)` in the accumulator, so feeding `C` after it is feeding
`C` to an accumulator that holds `crc16(B)`. -/
theorem crcGeneratorComputesCrc16InParts : Obligations.CrcGeneratorComputesCrc16InParts := by
  intro s B C
  have hparts := State.crcFeed_foldl_crc16 s B C
  have hrun : B.foldl State.crcFeed s.crcInit = { s with crcAcc := crc16 B } := s.crcRun_eq B
  have honePass : C.foldl State.crcFeed (B.foldl State.crcFeed s.crcInit) =
      { s with crcAcc := crc16 (B ++ C) } := by
    rw [hrun, hparts]
  have hvalue : (C.foldl State.crcFeed (B.foldl State.crcFeed s.crcInit)).crcValue =
      crc16 (B ++ C) := by
    rw [honePass, State.crcValue]
  exact ⟨hvalue, honePass, hparts⟩

end Sys2Proof.Proofs
end

section
/-! PROOFS. What an operation leaves of the input bank: no frame writes it (R125, R127). -/

namespace Sys2Proof.Machine

/-- A reply changes no word of `I`. -/
@[simp] theorem State.sendReply_input (s : State) (p : Frame) : (s.sendReply p).input = s.input := by
  rw [State.sendReply_eq]

/-- No instruction writes the input bank (R125). -/
theorem exec_keeps_input {i : Instr} {s t : State} (h : exec i s = .next t) : t.input = s.input := by
  rcases exec_cases i s t h with rfl | ⟨p, rfl⟩ | ⟨a, v, p, rfl⟩ | ⟨a, vs, p, rfl⟩
  · exact s.drop_input _
  · exact s.sendReply_input p
  · rw [State.sendReply_input, State.writeHolding_input]
  · rw [State.sendReply_input, State.writeHoldingBlock_input]

end Sys2Proof.Machine

namespace Sys2Proof.Proofs

open Sys2Proof Sys2Proof.Machine

/-- Settles O10: the write is a write of the holding bank alone, so a word of `H` is read by the bank's
laws, and a word of `I` and every other field are as they were. -/
theorem writeHoldingIsIsolated : Obligations.WriteHoldingIsIsolated := by
  intro s a v
  have hsame : (s.writeHolding a v).readHolding a = v := s.holding.read_write_same a v
  have hother (k : Word) (hk : k ≠ a) : (s.writeHolding a v).readHolding k = s.readHolding k :=
    s.holding.read_write_other hk v
  have hinput (k : Word) : (s.writeHolding a v).readInput k = s.readInput k := by
    rw [State.readInput, State.writeHolding_input, State.readInput]
  exact ⟨hsame, hother, hinput, rfl⟩

/-- Settles O46: a pending reset loads the table, a wait and a drop keep the bank, and so does whatever
a frame runs. -/
theorem inputBankChangesOnlyByReset : Obligations.InputBankChangesOnlyByReset := by
  intro s t h
  rcases step_cases s with ⟨hreset, hs⟩ | ⟨-, -, hs⟩ | ⟨f, rest, i, -, -, -, -, hs⟩ |
    ⟨f, rest, c, -, -, -, -, hs⟩ <;> rw [hs] at h
  · cases h
    exact .inr ⟨hreset, s.takeReset_input⟩
  · cases h
    exact .inl rfl
  · have hkept : t.input = State.input { s with ingress := rest } := exec_keeps_input h
    exact .inl hkept
  · cases h
    exact .inl (State.drop_input _ c)

end Sys2Proof.Proofs
end

section
/-! PROOFS. The decoder by function code: what a whole header leads to (R71, R72, R142, R149), and the
bytes of a value block. -/

namespace Sys2Proof

open Sys2Proof.Machine

/-- The byte of a function code names it again (R71). -/
@[simp] theorem FunctionCode.ofByte_toByte (fc : FunctionCode) : ofByte fc.toByte = some fc := by
  cases fc <;> rfl

/-- A byte names the function code whose byte it is, and no other (R71). -/
theorem FunctionCode.eq_toByte_of_ofByte {b : Byte} {fc : FunctionCode} (h : ofByte b = some fc) :
    b = fc.toByte := by
  unfold ofByte at h
  split_ifs at h with hb hb hb hb <;> cases h <;> exact hb

/-- The unsupported space: the bytes of none of the four function codes (R72). -/
theorem FunctionCode.ofByte_eq_none_iff {b : Byte} :
    ofByte b = none ↔ b ∉ ([0x03, 0x04, 0x06, 0x10] : List Byte) := by
  simp only [List.mem_cons, List.not_mem_nil, or_false, not_or]
  unfold ofByte
  split_ifs <;> simp_all

/-- A frame without a whole header is short (R142). -/
theorem decode_of_length_lt_four {g : Frame} (h : g.length < 4) : decode g = .error .shortFrame := by
  match g with
  | [] | [_] | [_, _] | [_, _, _] => rfl
  | _ :: _ :: _ :: _ :: _ =>
    simp only [List.length_cons] at h
    omega

/-- Behind a header with a supported function code comes its payload (R71, R73). -/
theorem decode_cons_toByte (fc : FunctionCode) (u ah al : Byte) (p : Frame) :
    decode (u :: fc.toByte :: ah :: al :: p) = decodePayload fc u (be16 ah al) p := by
  simp only [decode, FunctionCode.ofByte_toByte]

/-- A whole header with any other function code is unsupported, whatever follows it (R149). -/
theorem decode_of_unsupported {g : Frame} (hlen : 4 ≤ g.length)
    (hfc : FunctionCode.ofByte (g.getD 1 0) = none) : decode g = .error .unsupportedFc := by
  match g with
  | [] | [_] | [_, _] | [_, _, _] => simp at hlen
  | _ :: code :: _ :: _ :: _ =>
    have hcode : FunctionCode.ofByte code = none := hfc
    simp only [decode, hcode]

/-- Every function code asks for one word behind the header (R73). -/
theorem decodePayload_of_length_lt_two {p : Frame} (h : p.length < 2) (fc : FunctionCode) (u : Byte)
    (a : Word) : decodePayload fc u a p = .error .underlength := by
  match p with
  | [] | [_] => rfl
  | _ :: _ :: _ => simp at h

/-- Of a WRM payload the length of the data alone decides whether it decodes (R64, R73). -/
theorem decodePayload_writeMultiple (u x l b : Byte) (a : Word) (data : Frame) :
    decodePayload .writeMultiple u a (x :: l :: b :: data) =
      if data.length < 2 * (be16 x l).toNat then .error .underlength
      else .ok (.wrm u a (be16 x l) b (takeWords (be16 x l).toNat data)) := rfl

end Sys2Proof

namespace Sys2Proof.Machine

/-- Word `k` of a byte string is made of its bytes `2k` and `2k + 1` (R64, R66). -/
theorem takeWords_getD {n k : Nat} (hk : k < n) (f : Frame) (h : 2 * n ≤ f.length) :
    (takeWords n f).getD k 0 = be16 (f.getD (2 * k) 0) (f.getD (2 * k + 1) 0) := by
  induction n generalizing k f with
  | zero => omega
  | succ n ih =>
    match f, k with
    | [], _ => simp at h
    | [_], _ => simp at h; omega
    | x :: l :: rest, 0 => rfl
    | x :: l :: rest, k + 1 =>
      have hrest : 2 * n ≤ rest.length := by simp at h; omega
      exact ih (by omega) rest hrest

end Sys2Proof.Machine
end

section
/-! PROOFS. What the engine answers to a frame, in the terms of the decoder's verdict (R140 to R144). -/

namespace Sys2Proof.Machine

/-- The answer to a frame taken: its instruction runs, or it is dropped with its cause (R140). -/
def State.answer (s : State) : Except DropCause Instr → Host.Outcome State Fault Refusal
  | .ok i => exec i s
  | .error cause => .next (s.drop cause)

/-- The step on a taken frame is the answer to it, in the state without the frame (R140). -/
theorem State.Takes.step_eq_answer {s : State} {f : Frame} {rest : List Frame} (h : s.Takes f rest) :
    step s = State.answer { s with ingress := rest } (parse s.config f) := by
  cases hp : parse s.config f with
  | ok i => exact h.step_eq_exec hp
  | error cause =>
    obtain ⟨hready, hreset, holdest⟩ := h
    simp [step, State.fetch, hreset, hready, holdest, hp, State.answer]

/-- A taken frame that does not parse is dropped with its cause and nothing else happens (R183). -/
theorem State.Takes.step_eq_drop {s : State} {f : Frame} {rest : List Frame} {c : DropCause}
    (h : s.Takes f rest) (hp : parse s.config f = .error c) :
    step s = .next { s with ingress := rest, egress := s.egress ++ [.noReply c] } := by
  rw [h.step_eq_answer, hp]
  rfl

/-- A frame of fewer than 4 bytes is short with and without the check of its CRC (R141, R142). -/
theorem parse_of_length_lt_four (c : Config) {f : Frame} (h : f.length < 4) :
    parse c f = .error .shortFrame := by
  cases hcheck : c.checkRequestCrc with
  | false => simp [parse, checkRequest, hcheck, decode_of_length_lt_four h]
  | true => simp [parse, checkRequest, hcheck, show f.length < 6 by omega]

/-- The meaning of WRM does not look at the byte count (R155). -/
theorem exec_wrm_byteCount (s : State) (u : Byte) (a n : Word) (b b' : Byte) (vs : List Word) :
    exec (.wrm u a n b vs) s = exec (.wrm u a n b' vs) s := rfl

/-- The answer to a 0x10 request is the same whatever its byte count, which neither
the length test nor the meaning of WRM looks at (R155). -/
theorem State.answer_decode_set_byteCount (s : State) {g : Frame} (hfc : g.getD 1 0 = 0x10)
    (b : Byte) : s.answer (decode (g.set 6 b)) = s.answer (decode g) := by
  match g with
  | [] | [_] | [_, _] | [_, _, _] | [_, _, _, _] | [_, _, _, _, _] | [_, _, _, _, _, _] => rfl
  | u :: code :: ah :: al :: x :: l :: byteCount :: data =>
    have hcode : code = FunctionCode.toByte .writeMultiple := hfc
    simp only [List.set_cons_succ, List.set_cons_zero, hcode, decode_cons_toByte,
      decodePayload_writeMultiple]
    split_ifs
    · rfl
    · exact exec_wrm_byteCount s u _ _ b byteCount _

end Sys2Proof.Machine

namespace Sys2Proof.Proofs

open Sys2Proof Sys2Proof.Machine

/-- Settles O26: under either setting of the check the frame does not parse, for it is short. -/
theorem shortFramesAreDropped : Obligations.ShortFramesAreDropped := by
  intro s f rest hf hlen
  exact hf.step_eq_drop (parse_of_length_lt_four s.config hlen)

/-- Settles O27: the function code is looked at before any other byte behind the header, and it names
no request. -/
theorem unsupportedFunctionCodesAreDropped : Obligations.UnsupportedFunctionCodesAreDropped := by
  intro s f rest g hf hg hlen hcode
  have hfc : FunctionCode.ofByte (g.getD 1 0) = none := FunctionCode.ofByte_eq_none_iff.mpr hcode
  exact hf.step_eq_drop ((parse_of_checkRequest hg).trans (decode_of_unsupported hlen hfc))

/-- Settles O32: both steps are the answers to their request bytes in the same state, and the answer
does not look at the byte count. -/
theorem wrmByteCountHasNoEffect : Obligations.WrmByteCountHasNoEffect := by
  intro s f f' g rest b hf hg hg' hcode
  have hstep : step s = State.answer { s with ingress := rest } (decode g) := by
    rw [hf.step_eq_answer, parse_of_checkRequest hg]
  have hstep' : step { s with ingress := f' :: rest } =
      State.answer { s with ingress := rest } (decode (g.set 6 b)) := by
    rw [(hf.replaceOldest f').step_eq_answer, parse_of_checkRequest hg']
  rw [hstep', hstep, State.answer_decode_set_byteCount _ hcode]

end Sys2Proof.Proofs
end

section
/-! PROOFS. A read of more words than the byte count of a reply can tell (R154). -/

namespace Sys2Proof.Machine

@[simp] theorem readPdu_length (fc : FunctionCode) (u : Byte) (ws : List Word) :
    (readPdu fc u ws).length = 3 + 2 * ws.length := by
  simp [readPdu]
  omega

/-- Behind the three bytes of its header a read PDU carries the words, high byte first (R66). -/
theorem be16_readPdu_getD (fc : FunctionCode) (u : Byte) (ws : List Word) (rest : Frame) {k : Nat}
    (hk : k < ws.length) :
    be16 ((readPdu fc u ws ++ rest).getD (3 + 2 * k) 0)
      ((readPdu fc u ws ++ rest).getD (4 + 2 * k) 0) = ws.getD k 0 := by
  have hword := takeWords_getD hk (putWords ws ++ rest) (by simp)
  rw [takeWords_putWords] at hword
  rw [hword, show 3 + 2 * k = 2 * k + 3 by omega, show 4 + 2 * k = 2 * k + 1 + 3 by omega]
  rfl

/-- Word `k` of a block read is the word at `ea(start, k)` (R121). -/
theorem Bank.readBlock_getD (b : Bank) (start : Word) {n k : Nat} (hk : k < n) :
    (b.readBlock start n).getD k 0 = b.read (ea start k) := by
  simp [Bank.readBlock, hk]

/-- RDH and RDI differ in their function code alone (R120, R145, R146). -/
theorem exec_read {i : Instr} {u : Byte} {a n : Word} (hi : i = .rdh u a n ∨ i = .rdi u a n)
    (s : State) : exec i s = .next (s.answerRead i.functionCode u a n) := by
  rcases hi with rfl | rfl <;> rfl

/-- A read over 127 words is dropped under `Drop` (R154). -/
theorem State.answerRead_of_drop {s : State} {n : Word} (hn : 127 < n.toNat)
    (hpolicy : s.config.byteCountPolicy = .drop) (fc : FunctionCode) (u : Byte) (a : Word) :
    s.answerRead fc u a n = s.drop .byteCountRange := by
  simp only [State.answerRead, (byteCountDrops_eq_true s.config n).mpr ⟨hn, hpolicy⟩, if_true]

/-- Under `Truncate` every read is answered with all its words (R154). -/
theorem State.answerRead_of_truncate {s : State} (hpolicy : s.config.byteCountPolicy = .truncate)
    (fc : FunctionCode) (u : Byte) (a n : Word) :
    s.answerRead fc u a n =
      s.sendReply (readPdu fc u ((s.bank (bankSelect fc)).readBlock a n.toNat)) := by
  simp [State.answerRead, (byteCountDrops_eq_false s.config n).mpr (.inr hpolicy)]

/-- The word a read instruction finds at an address, in the bank its function code selects (R120). -/
theorem State.bank_read_of_read {i : Instr} {u : Byte} {a n : Word}
    (hi : i = .rdh u a n ∨ i = .rdi u a n) (s : State) (k : Word) :
    (s.bank (bankSelect i.functionCode)).read k =
      if i = .rdh u a n then s.readHolding k else s.readInput k := by
  rcases hi with rfl | rfl <;> simp <;> rfl

end Sys2Proof.Machine

namespace Sys2Proof.Proofs

open Sys2Proof Sys2Proof.Machine

/-- Settles O17: the policy decides between the drop and the read PDU, whose byte count is the low byte
of `2*count` and whose length is not bounded by it. -/
theorem readsOver127WordsFollowThePolicy : Obligations.ReadsOver127WordsFollowThePolicy := by
  intro s i u a n hn hi
  rw [exec_read hi]
  refine ⟨fun hdrop => ?_, fun htruncate => ?_⟩
  · rw [State.answerRead_of_drop hn hdrop]
    rfl
  · rw [State.answerRead_of_truncate htruncate, State.sendReply_eq]
    generalize hw : (s.bank (bankSelect i.functionCode)).readBlock a n.toNat = ws
    have hlen : ws.length = n.toNat := by rw [← hw, Bank.readBlock_length]
    have hpdu : (readPdu i.functionCode u ws).length = 3 + 2 * n.toNat := by
      rw [readPdu_length, hlen]
    refine ⟨_, _, rfl, rfl, ?_, ?_, ?_, fun k hk => ?_⟩
    · simp [readPdu, hlen]
    · simp [hlen]
      omega
    · rw [← hpdu, List.drop_left, List.take_left]
    · rw [be16_readPdu_getD _ _ _ _ (hlen ▸ hk), ← hw, Bank.readBlock_getD _ _ hk,
        State.bank_read_of_read hi]

end Sys2Proof.Proofs
end

section
/-! PROOFS. The pseudocode over dense banks, format by format: what it reads by offset is what the
decoder reads by pattern, and a bank read as a function is a dense bank (R23, R140, R145 to R149). -/

namespace Sys2Proof.Machine

theorem addressOf_eq_ea (start : Word) (i : Nat) : addressOf start i = ea start i := by
  apply BitVec.eq_of_toNat_eq
  simp [addressOf, ea_toNat]

/-- A write of a bank is an update of the dense bank it stands for (R23, R124). -/
theorem Bank.read_write_eq_update (b : Bank) (a v : Word) :
    (b.write a v).read = DenseBank.update b.read a v := by
  funext k
  by_cases hk : k = a
  · simp [DenseBank.update, hk, Bank.read_write_same]
  · simp [DenseBank.update, hk, Bank.read_write_other]

/-- A block write of the words of a byte string is the pseudocode's loop of updates, each with the two
bytes at its offset (R129, R148). -/
theorem Bank.read_writeFrom_takeWords (start : Word) (n i : Nat) (data : Frame) (b : Bank)
    (h : 2 * n ≤ data.length) :
    (Bank.writeFrom start i (takeWords n data) b).read =
      (List.range n).foldl
        (fun y j => DenseBank.update y (ea start (i + j))
          (be16 (byteAt data (2 * j)) (byteAt data (2 * j + 1)))) b.read := by
  induction n generalizing i data b with
  | zero => rfl
  | succ n ih =>
    match data with
    | [] => simp at h
    | [_] => simp at h; omega
    | x :: l :: rest =>
      have hrest : 2 * n ≤ rest.length := by simp at h; omega
      rw [takeWords, Bank.writeFrom, ih _ _ _ hrest, Bank.read_write_eq_update,
        List.range_succ_eq_map, List.foldl_cons, List.foldl_map]
      simp only [Nat.succ_eq_add_one, ← Nat.add_assoc, Nat.add_right_comm i 1]
      rfl

/-! ### The header -/

theorem processStripped_of_length_lt_four (c : Config) (h x : DenseBank) {f : Frame}
    (hlen : f.length < 4) : processStripped c h x f = (.noReply .shortFrame, h) := by
  rw [processStripped, if_pos hlen]

theorem processStripped_of_unsupported (c : Config) (h x : DenseBank) {f : Frame}
    (hlen : 4 ≤ f.length) (hfc : FunctionCode.ofByte (f.getD 1 0) = none) :
    processStripped c h x f = (.noReply .unsupportedFc, h) := by
  have hcode := FunctionCode.ofByte_eq_none_iff.mp hfc
  simp only [List.mem_cons, List.not_mem_nil, or_false, not_or] at hcode
  obtain ⟨h03, h04, h06, h10⟩ := hcode
  rw [processStripped, if_neg (Nat.not_lt.mpr hlen)]
  exact (if_neg h03).trans <| (if_neg h04).trans <| (if_neg h06).trans <| if_neg h10

theorem processStripped_readHolding (c : Config) (h x : DenseBank) (u ah al : Byte) (p : Frame) :
    processStripped c h x (u :: FunctionCode.toByte .readHolding :: ah :: al :: p) =
      (processRead c h (u :: FunctionCode.toByte .readHolding :: ah :: al :: p) u
        (FunctionCode.toByte .readHolding) (be16 ah al), h) := rfl

theorem processStripped_readInput (c : Config) (h x : DenseBank) (u ah al : Byte) (p : Frame) :
    processStripped c h x (u :: FunctionCode.toByte .readInput :: ah :: al :: p) =
      (processRead c x (u :: FunctionCode.toByte .readInput :: ah :: al :: p) u
        (FunctionCode.toByte .readInput) (be16 ah al), h) := rfl

theorem processStripped_writeSingle (c : Config) (h x : DenseBank) (u ah al : Byte) (p : Frame) :
    processStripped c h x (u :: FunctionCode.toByte .writeSingle :: ah :: al :: p) =
      processWrs h (u :: FunctionCode.toByte .writeSingle :: ah :: al :: p) (be16 ah al) := rfl

theorem processStripped_writeMultiple (c : Config) (h x : DenseBank) (u ah al : Byte) (p : Frame) :
    processStripped c h x (u :: FunctionCode.toByte .writeMultiple :: ah :: al :: p) =
      processWrm h (u :: FunctionCode.toByte .writeMultiple :: ah :: al :: p) (be16 ah al) := rfl

/-- Every function code asks for one word behind the header (R73, R156). -/
theorem processStripped_of_payload_lt_two (c : Config) (h x : DenseBank) (fc : FunctionCode)
    (u ah al : Byte) {p : Frame} (hlen : p.length < 2) :
    processStripped c h x (u :: fc.toByte :: ah :: al :: p) = (.noReply .underlength, h) := by
  match p with
  | [] | [_] => cases fc <;> rfl
  | _ :: _ :: _ => simp at hlen

/-! ### The payload -/

/-- The pseudocode's loop over the words of a bank appends them as they are sent (R145, R146). -/
theorem foldl_append_words (b : Bank) (start : Word) (n : Nat) (p : Frame) :
    (List.range n).foldl
        (fun p i => p ++ [hi8 (b.read (addressOf start i)), lo8 (b.read (addressOf start i))]) p =
      p ++ putWords (b.readBlock start n) := by
  rw [List.foldl_append_eq_append, putWords, Bank.readBlock, List.flatMap_map, List.flatMap_def]
  simp only [addressOf_eq_ea]
  rfl

/-- The read of the pseudocode, on the bank `b` as a function, is the model's byte-count rule and the
model's reply (R145, R146, R154). -/
theorem processRead_eq (c : Config) (b : Bank) (fc : FunctionCode) (u ah al v w : Byte) (p : Frame)
    (start : Word) :
    processRead c b.read (u :: fc.toByte :: ah :: al :: v :: w :: p) u fc.toByte start =
      if byteCountDrops c (be16 v w) then .noReply .byteCountRange
      else replyWithCrc (readPdu fc u (b.readBlock start (be16 v w).toNat)) := by
  have hbytes : BitVec.ofNat 8 (2 * (be16 v w).toNat % 256) = BitVec.ofNat 8 (2 * (be16 v w).toNat) :=
    BitVec.eq_of_toNat_eq (by simp)
  have hcount : be16 (byteAt (u :: fc.toByte :: ah :: al :: v :: w :: p) 4)
    (byteAt (u :: fc.toByte :: ah :: al :: v :: w :: p) 5) = be16 v w := rfl
  rw [processRead, if_neg (by simp), hcount]
  simp only [foldl_append_words, hbytes, byteCountDrops, readPdu, Bank.readBlock_length,
    Bool.and_eq_true, decide_eq_true_eq]

/-- The write of one word, on the bank `b` as a function (R147). -/
theorem processWrs_eq (b : Bank) (u ah al v w : Byte) (p : Frame) :
    processWrs b.read (u :: FunctionCode.toByte .writeSingle :: ah :: al :: v :: w :: p) (be16 ah al) =
      (replyWithCrc (echoPdu .writeSingle u (be16 ah al) (be16 v w)),
        (b.write (be16 ah al) (be16 v w)).read) := by
  rw [Bank.read_write_eq_update, echoPdu, wordBytes_be16, wordBytes_be16]
  rfl

/-- A block write whose frame is shorter than its count asks for is underlength, with or without the
byte count in it (R73, R148, R156). -/
theorem processWrm_of_length_lt (h : DenseBank) (start : Word) {f : Frame}
    (hlen : f.length < 7 + 2 * (be16 (byteAt f 4) (byteAt f 5)).toNat) :
    processWrm h f start = (.noReply .underlength, h) := by
  unfold processWrm
  split
  · rfl
  · exact if_pos hlen

/-- The write of a block, on the bank `b` as a function, is the model's block write (R148). -/
theorem processWrm_of_le_data (b : Bank) (u ah al v w bc : Byte) {data : Frame}
    (hlen : 2 * (be16 v w).toNat ≤ data.length) :
    processWrm b.read (u :: FunctionCode.toByte .writeMultiple :: ah :: al :: v :: w :: bc :: data)
        (be16 ah al) =
      (replyWithCrc (echoPdu .writeMultiple u (be16 ah al) (be16 v w)),
        (Bank.writeFrom (be16 ah al) 0 (takeWords (be16 v w).toNat data) b).read) := by
  have hframe : ¬ (u :: FunctionCode.toByte .writeMultiple :: ah :: al :: v :: w :: bc :: data).length <
      7 + 2 * (be16 v w).toNat := by
    simp; omega
  have hbyte (k : Nat) : byteAt (u :: FunctionCode.toByte .writeMultiple :: ah :: al :: v :: w :: bc ::
      data) (7 + k) = byteAt data k := by
    rw [Nat.add_comm]; rfl
  have hnext (k : Nat) : byteAt (u :: FunctionCode.toByte .writeMultiple :: ah :: al :: v :: w :: bc ::
      data) (8 + k) = byteAt data (k + 1) := by
    rw [Nat.add_comm]; rfl
  rw [Bank.read_writeFrom_takeWords _ _ _ _ _ hlen, echoPdu, wordBytes_be16, wordBytes_be16,
    processWrm, if_neg (by simp)]
  simp only [hbyte, hnext, addressOf_eq_ea, Nat.zero_add]
  exact if_neg hframe

/-! ### The optional check -/

/-- A frame passes the check and is processed by its request bytes, or is dropped with the cause of the
check (R141). -/
theorem checkRequest_process_cases (c : Config) (h x : DenseBank) (f : Frame) :
    (∃ g, checkRequest c f = .ok g ∧ process c h x f = processStripped c h x g) ∨
    (∃ cause, checkRequest c f = .error cause ∧ process c h x f = (.noReply cause, h)) := by
  by_cases hon : c.checkRequestCrc = true
  case neg => exact .inl ⟨f, if_neg hon, if_neg hon⟩
  by_cases hlen : f.length < 6
  case pos => exact .inr ⟨_, (if_pos hon).trans (if_pos hlen), (if_pos hon).trans (if_pos hlen)⟩
  by_cases hmatch : crc16 (f.take (f.length - 2)) =
      be16 (byteAt f (f.length - 1)) (byteAt f (f.length - 2))
  · exact .inl ⟨_, (if_pos hon).trans <| (if_neg hlen).trans <| if_pos hmatch,
      (if_pos hon).trans <| (if_neg hlen).trans <| if_neg (not_not.mpr hmatch)⟩
  · exact .inr ⟨_, (if_pos hon).trans <| (if_neg hlen).trans <| if_neg hmatch,
      (if_pos hon).trans <| (if_neg hlen).trans <| if_pos hmatch⟩

end Sys2Proof.Machine
end

section
/-! PROOFS. The step refines the pseudocode (R140): each way a frame is answered gives the result and the
holding bank of `Process(F)`. -/

namespace Sys2Proof.Machine

/-- The outcome of a frame taken in `s` is what the pseudocode says: a next state with its result `r.1`
added and its holding bank `r.2`, everything else but the accumulator as it was (R140). -/
def State.Refines (s : State) (o : Host.Outcome State Fault Refusal) (r : Result × DenseBank) : Prop :=
  ∃ t, o = .next t ∧ t.ingress = s.ingress ∧ t.egress = s.egress ++ [r.1] ∧
    (∀ a, t.holding.read a = r.2 a) ∧
    t.input = s.input ∧ t.phase = s.phase ∧ t.config = s.config ∧ t.resetPending = s.resetPending

theorem State.drop_refines (s : State) (cause : DropCause) :
    s.Refines (.next (s.drop cause)) (.noReply cause, s.holding.read) :=
  ⟨_, rfl, rfl, rfl, fun _ => rfl, rfl, rfl, rfl, rfl⟩

/-- A reply, after a write of `H` or none. -/
theorem State.sendReply_refines (s : State) (b : Bank) (p : Frame) :
    s.Refines (.next (State.sendReply { s with holding := b } p)) (replyWithCrc p, b.read) := by
  rw [State.sendReply_eq]
  exact ⟨_, rfl, rfl, rfl, fun _ => rfl, rfl, rfl, rfl, rfl⟩

theorem State.answerRead_refines (s : State) (fc : FunctionCode) (u ah al v w : Byte) (p : Frame)
    (start : Word) :
    s.Refines (.next (s.answerRead fc u start (be16 v w)))
      (processRead s.config (s.bank (bankSelect fc)).read
        (u :: fc.toByte :: ah :: al :: v :: w :: p) u fc.toByte start, s.holding.read) := by
  rw [processRead_eq]
  rcases s.answerRead_cases fc u start (be16 v w) with ⟨hdrop, e⟩ | ⟨hreply, e⟩
  · rw [e, hdrop, if_pos rfl]
    exact s.drop_refines _
  · rw [e, hreply, if_neg Bool.false_ne_true]
    exact s.sendReply_refines s.holding _

theorem State.execWrm_refines (s : State) (u ah al v w b : Byte) {data : Frame}
    (hlen : 2 * (be16 v w).toNat ≤ data.length) :
    s.Refines
      (exec (.wrm u (be16 ah al) (be16 v w) b (takeWords (be16 v w).toNat data)) s)
      (processWrm s.holding.read
        (u :: FunctionCode.toByte .writeMultiple :: ah :: al :: v :: w :: b :: data) (be16 ah al)) := by
  rw [processWrm_of_le_data _ _ _ _ _ _ _ hlen, exec, execWrm, if_pos (takeWords_length _ _ hlen)]
  exact s.sendReply_refines _ _

/-- A supported request, by its function code and by what stands behind its header. -/
theorem State.answer_decodePayload_refines (s : State) (fc : FunctionCode) (u ah al : Byte)
    (p : Frame) :
    s.Refines (s.answer (decodePayload fc u (be16 ah al) p))
      (processStripped s.config s.holding.read s.input.read (u :: fc.toByte :: ah :: al :: p)) := by
  rcases Nat.lt_or_ge p.length 2 with hshort | hlong
  · rw [decodePayload_of_length_lt_two hshort, processStripped_of_payload_lt_two _ _ _ _ _ _ _ hshort]
    exact s.drop_refines _
  match fc, p with
  | .readHolding, v :: w :: p =>
    rw [processStripped_readHolding]
    exact s.answerRead_refines .readHolding u ah al v w p (be16 ah al)
  | .readInput, v :: w :: p =>
    rw [processStripped_readInput]
    exact s.answerRead_refines .readInput u ah al v w p (be16 ah al)
  | .writeSingle, v :: w :: p =>
    rw [processStripped_writeSingle, processWrs_eq]
    exact s.sendReply_refines _ _
  | .writeMultiple, [v, w] =>
    have hframe : [u, FunctionCode.toByte .writeMultiple, ah, al, v, w].length <
        7 + 2 * (be16 v w).toNat := by
      simp; omega
    rw [processStripped_writeMultiple, processWrm_of_length_lt _ _ hframe]
    exact s.drop_refines _
  | .writeMultiple, v :: w :: b :: data =>
    rw [processStripped_writeMultiple]
    rcases Nat.lt_or_ge data.length (2 * (be16 v w).toNat) with hlt | hle
    · have hframe : (u :: FunctionCode.toByte .writeMultiple :: ah :: al :: v :: w :: b :: data).length <
          7 + 2 * (be16 v w).toNat := by
        simp; omega
      rw [decodePayload_writeMultiple, if_pos hlt, processWrm_of_length_lt _ _ hframe]
      exact s.drop_refines _
    · rw [decodePayload_writeMultiple_of_le hle]
      exact s.execWrm_refines u ah al v w b hle

/-- The answer to the request bytes of a frame, in the order of the pseudocode's tests: the length of
the header, the function code, the payload (R140 to R149). -/
theorem State.answer_decode_refines (s : State) (g : Frame) :
    s.Refines (s.answer (decode g)) (processStripped s.config s.holding.read s.input.read g) := by
  match g with
  | [] | [_] | [_, _] | [_, _, _] => exact s.drop_refines .shortFrame
  | u :: code :: ah :: al :: p =>
    cases hfc : FunctionCode.ofByte code with
    | none =>
      have hlen : 4 ≤ (u :: code :: ah :: al :: p).length := by simp
      rw [decode_of_unsupported hlen hfc, processStripped_of_unsupported _ _ _ hlen hfc]
      exact s.drop_refines _
    | some fc =>
      rw [FunctionCode.eq_toByte_of_ofByte hfc, decode_cons_toByte]
      exact s.answer_decodePayload_refines fc u ah al p

/-- The answer to a frame, its CRC checked or not (R140, R141). -/
theorem State.answer_parse_refines (s : State) (f : Frame) :
    s.Refines (s.answer (parse s.config f)) (process s.config s.holding.read s.input.read f) := by
  rcases checkRequest_process_cases s.config s.holding.read s.input.read f with
    ⟨g, hcheck, hprocess⟩ | ⟨cause, hcheck, hprocess⟩ <;> rw [hprocess]
  · rw [parse_of_checkRequest hcheck]
    exact s.answer_decode_refines g
  · rw [parse, hcheck]
    exact s.drop_refines cause

end Sys2Proof.Machine

namespace Sys2Proof.Proofs

open Sys2Proof Sys2Proof.Machine

/-- Settles O39: the step is the answer to the frame in the state without it, and that answer refines
the pseudocode. -/
theorem stepRefinesProcess : Obligations.StepRefinesProcess := by
  intro s f rest hf
  rw [hf.step_eq_answer]
  exact State.answer_parse_refines { s with ingress := rest } f

end Sys2Proof.Proofs
end

section
/-! PROOFS. A dropped frame leaves no trace but its result (R180, R183). -/

namespace Sys2Proof.Machine

/-- What a reply adds to the results is no drop. -/
theorem State.sendReply_egress_ne_noReply (s : State) (p : Frame) (c : DropCause) :
    (s.sendReply p).egress ≠ s.egress ++ [.noReply c] := by
  simp [State.sendReply_eq]

/-- An instruction whose result is a drop has done the drop and nothing else (R154, R183). -/
theorem exec_eq_drop {i : Instr} {s t : State} {c : DropCause} (h : exec i s = .next t)
    (hdrop : t.egress = s.egress ++ [.noReply c]) : t = s.drop c := by
  rcases exec_cases i s t h with rfl | ⟨p, rfl⟩ | ⟨a, v, p, rfl⟩ | ⟨a, vs, p, rfl⟩
  · have hcause : DropCause.byteCountRange = c := by simpa using hdrop
    rw [hcause]
  · exact absurd hdrop (s.sendReply_egress_ne_noReply p c)
  · exact absurd hdrop ((s.writeHolding a v).sendReply_egress_ne_noReply p c)
  · exact absurd hdrop ((s.writeHoldingBlock a vs).sendReply_egress_ne_noReply p c)

end Sys2Proof.Machine

namespace Sys2Proof.Proofs

open Sys2Proof Sys2Proof.Machine

/-- Settles O35: a reset and a wait give no result; a frame that runs and one that does not parse, if
dropped, are dropped in the state without the frame. -/
theorem dropsArePrecise : Obligations.DropsArePrecise := by
  intro s t c h hdrop
  rcases step_cases s with ⟨-, hs⟩ | ⟨-, -, hs⟩ | ⟨f, rest, i, -, -, hqueue, -, hs⟩ |
    ⟨f, rest, c', -, -, hqueue, -, hs⟩ <;> rw [hs] at h
  · cases h
    simp at hdrop
  · cases h
    simp at hdrop
  · rw [exec_eq_drop h hdrop, hqueue]
    rfl
  · cases h
    have hcause : c' = c := by simpa using hdrop
    rw [hcause, hqueue]
    rfl

end Sys2Proof.Proofs
end

section
/-! PROOFS. The order of the drop causes, and what it means that a result reports the first (R181,
R182). -/

namespace Sys2Proof

/-- The parameters with the check of the request's CRC turned off. -/
def Config.unchecked (c : Config) : Config := { c with checkRequestCrc := false }

theorem Config.unchecked_of_off {c : Config} (hoff : c.checkRequestCrc = false) :
    c.unchecked = c := by
  cases c
  simpa [Config.unchecked] using hoff.symm

theorem DropCause.code_injective {c d : DropCause} (h : c.code = d.code) : c = d := by
  cases c <;> cases d <;> simp_all [DropCause.code]

/-- A claim about every cause, cause by cause (R181). -/
theorem DropCause.forall_iff {P : DropCause → Prop} :
    (∀ c, P c) ↔
      P .shortFrame ∧ P .reqCrcMismatch ∧ P .unsupportedFc ∧ P .underlength ∧ P .byteCountRange := by
  refine ⟨fun h => ⟨h _, h _, h _, h _, h _⟩, fun ⟨h1, h2, h3, h4, h5⟩ c => ?_⟩
  cases c <;> assumption

end Sys2Proof

namespace Sys2Proof.Machine

/-- Of the causes that apply, `cause` is the first in the order of the codes (R182). -/
def FirstCause (applies : DropCause → Bool) (cause : DropCause) : Prop :=
  applies cause = true ∧ ∀ c : DropCause, c.code < cause.code → applies c = false

/-- The result names the first cause that applies, or is a reply if none does (R182). -/
def Reports (applies : DropCause → Bool) (r : Result) : Prop :=
  (∀ c, r = .noReply c ↔ FirstCause applies c) ∧ ((∃ p, r = .reply p) ↔ ∀ c, applies c = false)

/-- There is at most one first cause: the codes are distinct. -/
theorem FirstCause.unique {applies : DropCause → Bool} {c d : DropCause} (hc : FirstCause applies c)
    (hd : FirstCause applies d) : c = d := by
  obtain ⟨hcapplies, hcfirst⟩ := hc
  obtain ⟨hdapplies, hdfirst⟩ := hd
  rcases Nat.lt_trichotomy c.code d.code with hlt | heq | hgt
  · exact absurd hcapplies (by simp [hdfirst c hlt])
  · exact DropCause.code_injective heq
  · exact absurd hdapplies (by simp [hcfirst d hgt])

theorem FirstCause.reports {applies : DropCause → Bool} {c : DropCause} (h : FirstCause applies c) :
    Reports applies (.noReply c) := by
  have happlies : applies c = true := h.1
  refine ⟨fun d => ⟨fun hd => ?_, fun hd => ?_⟩, fun ⟨p, hp⟩ => ?_, fun hnone => ?_⟩
  · cases hd
    exact h
  · rw [h.unique hd]
  · cases hp
  · simp [hnone c] at happlies

theorem reports_reply {applies : DropCause → Bool} (h : ∀ c, applies c = false) (p : Frame) :
    Reports applies (.reply p) := by
  refine ⟨fun c => ⟨fun hc => ?_, fun hc => ?_⟩, fun _ => h, fun _ => ⟨p, rfl⟩⟩
  · cases hc
  · obtain ⟨happlies, -⟩ := hc
    simp [h c] at happlies

end Sys2Proof.Machine
end

section
/-! PROOFS. The first cause that applies to a frame, test by test in the order of `Process` (R140, R181,
R182): the pseudocode reports it. -/

namespace Sys2Proof.Machine

/-! ### The causes where no CRC is checked -/

@[simp] theorem causeApplies_unchecked_shortFrame (c : Config) (g : Frame) :
    causeApplies c.unchecked g .shortFrame = decide (g.length < 4) := rfl

@[simp] theorem causeApplies_unchecked_reqCrcMismatch (c : Config) (g : Frame) :
    causeApplies c.unchecked g .reqCrcMismatch = false := rfl

@[simp] theorem causeApplies_unchecked_unsupportedFc (c : Config) (g : Frame) :
    causeApplies c.unchecked g .unsupportedFc = (FunctionCode.ofByte (byteAt g 1)).isNone := rfl

@[simp] theorem causeApplies_unchecked_underlength (c : Config) (g : Frame) :
    causeApplies c.unchecked g .underlength =
      ((FunctionCode.ofByte (byteAt g 1)).isSome && !longEnough g) := rfl

theorem causeApplies_unchecked_byteCountRange (c : Config) (g : Frame) :
    causeApplies c.unchecked g .byteCountRange =
      (decide (byteAt g 1 = 0x03 ∨ byteAt g 1 = 0x04) && decide (c.byteCountPolicy = .drop) &&
        decide ((be16 (byteAt g 4) (byteAt g 5)).toNat > 127)) := rfl

/-! ### The optional check -/

/-- What the check does, and when (R74, R141). -/
theorem checkRequest_cases (c : Config) (f : Frame) :
    (c.checkRequestCrc = false ∧ checkRequest c f = .ok f) ∨
    (c.checkRequestCrc = true ∧ f.length < 6 ∧ checkRequest c f = .error .shortFrame) ∨
    (c.checkRequestCrc = true ∧ 6 ≤ f.length ∧
      crc16 (requestBody c f) = be16 (byteAt f (f.length - 1)) (byteAt f (f.length - 2)) ∧
      checkRequest c f = .ok (requestBody c f)) ∨
    (c.checkRequestCrc = true ∧ 6 ≤ f.length ∧
      crc16 (requestBody c f) ≠ be16 (byteAt f (f.length - 1)) (byteAt f (f.length - 2)) ∧
      checkRequest c f = .error .reqCrcMismatch) := by
  unfold checkRequest requestBody byteAt
  split_ifs <;> simp_all

/-- The check drops a frame with the first cause that applies to it (R141). -/
theorem firstCause_of_checkRequest {c : Config} {f : Frame} {cause : DropCause}
    (h : checkRequest c f = .error cause) : FirstCause (causeApplies c f) cause := by
  rcases checkRequest_cases c f with ⟨-, hs⟩ | ⟨hon, hlen, hs⟩ | ⟨-, -, -, hs⟩ |
    ⟨hon, hlen, hcrc, hs⟩ <;> rw [hs] at h <;> cases h
  · simp [FirstCause, causeApplies, DropCause.forall_iff, DropCause.code, hon, hlen]
  · simp [FirstCause, causeApplies, DropCause.forall_iff, DropCause.code, hon, hcrc, hlen]

/-- To a frame that passes the check the same causes apply as to its request bytes where nothing is
checked (R141, R181). -/
theorem causeApplies_of_checkRequest {c : Config} {f g : Frame} (h : checkRequest c f = .ok g) :
    causeApplies c f = causeApplies c.unchecked g := by
  rcases checkRequest_cases c f with ⟨hoff, hs⟩ | ⟨-, -, hs⟩ | ⟨hon, hlen, hcrc, hs⟩ |
    ⟨-, -, -, hs⟩ <;> rw [hs] at h <;> cases h
  · rw [Config.unchecked_of_off hoff]
  · have hbody : (requestBody c f).length = f.length - 2 := by simp [requestBody, hon]
    funext cause
    cases cause with
    | shortFrame =>
      rw [causeApplies_unchecked_shortFrame, causeApplies, if_pos hon, hbody]
      exact decide_eq_decide.mpr (by omega)
    | reqCrcMismatch =>
      rw [causeApplies_unchecked_reqCrcMismatch]
      simp [causeApplies, hcrc]
    | unsupportedFc | underlength | byteCountRange => rfl

/-! ### The header -/

theorem firstCause_of_length_lt_four (c : Config) {g : Frame} (hlen : g.length < 4) :
    FirstCause (causeApplies c.unchecked g) .shortFrame := by
  simp [FirstCause, DropCause.forall_iff, DropCause.code, hlen]

theorem firstCause_of_unsupported (c : Config) {g : Frame} (hlen : 4 ≤ g.length)
    (hfc : FunctionCode.ofByte (g.getD 1 0) = none) :
    FirstCause (causeApplies c.unchecked g) .unsupportedFc := by
  have hcode : FunctionCode.ofByte (byteAt g 1) = none := hfc
  simp [FirstCause, DropCause.forall_iff, DropCause.code, hlen, hcode]

/-! ### A supported request -/

section
variable (c : Config) {g : Frame} {fc : FunctionCode} (hlen : 4 ≤ g.length)
  (hfc : FunctionCode.ofByte (byteAt g 1) = some fc)
include hlen hfc

theorem reports_underlength (hlong : longEnough g = false) :
    Reports (causeApplies c.unchecked g) (.noReply .underlength) := by
  apply FirstCause.reports
  simp [FirstCause, DropCause.forall_iff, DropCause.code, hlen, hfc, hlong]

theorem reports_byteCountRange (hlong : longEnough g = true)
    (hrange : causeApplies c.unchecked g .byteCountRange = true) :
    Reports (causeApplies c.unchecked g) (.noReply .byteCountRange) := by
  refine FirstCause.reports ⟨hrange, ?_⟩
  simp [DropCause.forall_iff, DropCause.code, hlen, hfc, hlong]

theorem reports_replyWithCrc (hlong : longEnough g = true)
    (hrange : causeApplies c.unchecked g .byteCountRange = false) (p : Frame) :
    Reports (causeApplies c.unchecked g) (replyWithCrc p) := by
  apply reports_reply
  simp [DropCause.forall_iff, hlen, hfc, hlong, hrange]

end

/-- The length test of every function code but 0x10 (R73). -/
theorem longEnough_of_ne_writeMultiple {g : Frame} {fc : FunctionCode}
    (hfc : FunctionCode.ofByte (byteAt g 1) = some fc) (hne : fc ≠ .writeMultiple) :
    longEnough g = decide (6 ≤ g.length) := by
  have hcode : FunctionCode.ofByte (g.getD 1 0) = some fc := hfc
  cases fc with
  | writeMultiple => exact absurd rfl hne
  | readHolding | readInput | writeSingle => simp only [longEnough, hcode]

/-- The length test of 0x10: seven bytes and the data its count asks for (R73). -/
theorem longEnough_of_writeMultiple {g : Frame}
    (hfc : FunctionCode.ofByte (byteAt g 1) = some .writeMultiple) :
    longEnough g = decide (7 + 2 * (be16 (byteAt g 4) (byteAt g 5)).toNat ≤ g.length) := by
  have hcode : FunctionCode.ofByte (g.getD 1 0) = some .writeMultiple := hfc
  simp only [longEnough, hcode]
  split
  · have hshort : ¬ 7 + 2 * (be16 (byteAt g 4) (byteAt g 5)).toNat ≤ g.length := by omega
    simp [hshort]
  · rfl

/-- The byte-count rule applies to the two reads, as `Process` tests it (R145, R146, R181). -/
theorem causeApplies_byteCountRange_of_read (c : Config) {g : Frame} {fc : FunctionCode}
    (hcode : byteAt g 1 = fc.toByte) (hread : directionSelect fc = .read) :
    causeApplies c.unchecked g .byteCountRange = true ↔
      2 * (be16 (byteAt g 4) (byteAt g 5)).toNat > 255 ∧ c.byteCountPolicy = .drop := by
  have hbyte : byteAt g 1 = 0x03 ∨ byteAt g 1 = 0x04 := by
    cases fc with
    | readHolding => exact .inl hcode
    | readInput => exact .inr hcode
    | writeSingle | writeMultiple => cases hread
  have hcount : (be16 (byteAt g 4) (byteAt g 5)).toNat > 127 ↔
      2 * (be16 (byteAt g 4) (byteAt g 5)).toNat > 255 := by omega
  rw [causeApplies_unchecked_byteCountRange, decide_eq_true hbyte, Bool.true_and, Bool.and_eq_true,
    decide_eq_true_iff, decide_eq_true_iff, hcount, and_comm]

theorem causeApplies_byteCountRange_of_write (c : Config) {g : Frame} {fc : FunctionCode}
    (hcode : byteAt g 1 = fc.toByte) (hwrite : directionSelect fc = .write) :
    causeApplies c.unchecked g .byteCountRange = false := by
  have hbyte : ¬ (byteAt g 1 = 0x03 ∨ byteAt g 1 = 0x04) := by
    rw [hcode]
    cases fc with
    | readHolding | readInput => cases hwrite
    | writeSingle | writeMultiple => decide
  rw [causeApplies_unchecked_byteCountRange, decide_eq_false hbyte, Bool.false_and, Bool.false_and]

/-- RDH and RDI: the length, then the byte-count rule (R145, R146). -/
theorem processRead_reports (c : Config) (x : DenseBank) (u : Byte) (start : Word) {g : Frame}
    {fc : FunctionCode} (hlen : 4 ≤ g.length) (hcode : byteAt g 1 = fc.toByte)
    (hread : directionSelect fc = .read) :
    Reports (causeApplies c.unchecked g) (processRead c x g u fc.toByte start) := by
  have hfc : FunctionCode.ofByte (byteAt g 1) = some fc := by simp [hcode]
  have hlong := longEnough_of_ne_writeMultiple hfc (by rintro rfl; cases hread)
  have hrange := causeApplies_byteCountRange_of_read c hcode hread
  unfold processRead
  split
  next hshort => exact reports_underlength c hlen hfc (by simp [hlong, hshort])
  next hshort =>
    dsimp only
    split
    next hdrop => exact reports_byteCountRange c hlen hfc (by simp [hlong]; omega) (hrange.mpr hdrop)
    next hkeep =>
      have hnone := Bool.eq_false_iff.mpr (mt hrange.mp hkeep)
      exact reports_replyWithCrc c hlen hfc (by simp [hlong]; omega) hnone _

/-- WRS: the length alone (R147). -/
theorem processWrs_reports (c : Config) (h : DenseBank) (start : Word) {g : Frame}
    (hlen : 4 ≤ g.length) (hcode : byteAt g 1 = FunctionCode.toByte .writeSingle) :
    Reports (causeApplies c.unchecked g) (processWrs h g start).1 := by
  have hfc : FunctionCode.ofByte (byteAt g 1) = some .writeSingle := by simp [hcode]
  have hlong := longEnough_of_ne_writeMultiple hfc (by simp)
  have hrange := causeApplies_byteCountRange_of_write c hcode rfl
  unfold processWrs
  split_ifs with hshort
  · exact reports_underlength c hlen hfc (by simp [hlong, hshort])
  · exact reports_replyWithCrc c hlen hfc (by simp [hlong]; omega) hrange _

/-- WRM: the length without and with the data its count asks for (R148). -/
theorem processWrm_reports (c : Config) (h : DenseBank) (start : Word) {g : Frame}
    (hlen : 4 ≤ g.length) (hcode : byteAt g 1 = FunctionCode.toByte .writeMultiple) :
    Reports (causeApplies c.unchecked g) (processWrm h g start).1 := by
  have hfc : FunctionCode.ofByte (byteAt g 1) = some .writeMultiple := by simp [hcode]
  have hlong := longEnough_of_writeMultiple hfc
  have hrange := causeApplies_byteCountRange_of_write c hcode rfl
  by_cases hdata : g.length < 7 + 2 * (be16 (byteAt g 4) (byteAt g 5)).toNat
  · rw [processWrm_of_length_lt h start hdata]
    exact reports_underlength c hlen hfc (by simp [hlong, hdata])
  · unfold processWrm
    rw [if_neg (by omega)]
    simp only [if_neg hdata]
    exact reports_replyWithCrc c hlen hfc (by simp [hlong]; omega) hrange _

/-! ### The whole of `Process` -/

/-- The request bytes: the header's length, the function code, then the tests of that code (R140,
R142 to R149). -/
theorem processStripped_reports (c : Config) (h x : DenseBank) (g : Frame) :
    Reports (causeApplies c.unchecked g) (processStripped c h x g).1 := by
  match g with
  | [] | [_] | [_, _] | [_, _, _] => exact (firstCause_of_length_lt_four c (by simp)).reports
  | u :: code :: ah :: al :: p =>
    have hlen : 4 ≤ (u :: code :: ah :: al :: p).length := by simp
    cases hfc : FunctionCode.ofByte code with
    | none =>
      rw [processStripped_of_unsupported c h x hlen hfc]
      exact (firstCause_of_unsupported c hlen hfc).reports
    | some fc =>
      obtain rfl := FunctionCode.eq_toByte_of_ofByte hfc
      cases fc with
      | readHolding => exact processRead_reports (fc := .readHolding) c h u (be16 ah al) hlen rfl rfl
      | readInput => exact processRead_reports (fc := .readInput) c x u (be16 ah al) hlen rfl rfl
      | writeSingle => exact processWrs_reports c h (be16 ah al) hlen rfl
      | writeMultiple => exact processWrm_reports c h (be16 ah al) hlen rfl

/-- `Process(F)` reports the first cause that applies to the frame (R182). -/
theorem process_reports (c : Config) (h x : DenseBank) (f : Frame) :
    Reports (causeApplies c f) (process c h x f).1 := by
  rcases checkRequest_process_cases c h x f with ⟨g, hcheck, hprocess⟩ | ⟨cause, hcheck, hprocess⟩ <;>
    rw [hprocess]
  · rw [causeApplies_of_checkRequest hcheck]
    exact processStripped_reports c h x g
  · exact (firstCause_of_checkRequest hcheck).reports

end Sys2Proof.Machine

namespace Sys2Proof.Proofs

open Sys2Proof Sys2Proof.Machine

/-- Settles O38: the step gives the result of the pseudocode, whose tests stand in the order of the
codes. -/
theorem dropCauseIsTheFirstThatApplies : Obligations.DropCauseIsTheFirstThatApplies := by
  intro s f rest hf
  obtain ⟨t, hstep, -, hresult, -⟩ := stepRefinesProcess s f rest hf
  exact ⟨t, _, hstep, hresult, process_reports s.config s.holding.read s.input.read f⟩

end Sys2Proof.Proofs
end

section
/-! PROOFS. A request by its parts: the header of unit id, function code and address, and the payload
behind it (R61 to R64). What decodes is such a request with ignored bytes after it (R65), and what does
not decode fails the first test that applies (R73, R142, R149, R156). -/

namespace Sys2Proof

open Sys2Proof.Machine

/-- Byte 0 of a request (R61). -/
def Instr.unit : Instr → Byte
  | .rdh u _ _ | .rdi u _ _ | .wrs u _ _ | .wrm u _ _ _ _ => u

/-- The address of a request, its bytes 2 and 3 (R61). -/
def Instr.start : Instr → Word
  | .rdh _ a _ | .rdi _ a _ | .wrs _ a _ | .wrm _ a _ _ _ => a

/-- The bytes of a request behind its header (R62 to R64). -/
def Instr.payload : Instr → Frame
  | .rdh _ _ w | .rdi _ _ w | .wrs _ _ w => wordBytes w
  | .wrm _ _ n b vs => wordBytes n ++ b :: putWords vs

/-- The four formats have one header (R61). -/
theorem encode_eq_header_append_payload (i : Instr) :
    encode i = i.unit :: i.functionCode.toByte :: hi8 i.start :: lo8 i.start :: i.payload := by
  cases i <;> rfl

/-- Of a WRM only the number of its values is in question (R64). -/
theorem wrm_wf_iff {u b : Byte} {a n : Word} {vs : List Word} :
    (Instr.wrm u a n b vs).wf = true ↔ vs.length = n.toNat := by
  simp [Instr.wf]

/-- The payload of a well-formed instruction decodes to it, whatever follows (R62 to R65). -/
theorem decodePayload_payload_append {i : Instr} (hwf : i.wf = true) (t : Frame) :
    decodePayload i.functionCode i.unit i.start (i.payload ++ t) = .ok i := by
  cases i with
  | rdh u a w => exact congrArg (Except.ok ∘ Instr.rdh u a) (be16_hi8_lo8 w)
  | rdi u a w => exact congrArg (Except.ok ∘ Instr.rdi u a) (be16_hi8_lo8 w)
  | wrs u a w => exact congrArg (Except.ok ∘ Instr.wrs u a) (be16_hi8_lo8 w)
  | wrm u a n b vs =>
    have hcount : vs.length = n.toNat := wrm_wf_iff.mp hwf
    have hdata : 2 * (be16 (hi8 n) (lo8 n)).toNat ≤ (putWords vs ++ t).length := by
      simp [hcount]
    have hdecode := decodePayload_writeMultiple_of_le (u := u) (b := b) (a := a) hdata
    rwa [be16_hi8_lo8, ← hcount, takeWords_putWords] at hdecode

/-- The encoding of a well-formed instruction decodes to it, whatever follows (R62 to R65). -/
theorem decode_encode_append {i : Instr} (hwf : i.wf = true) (t : Frame) :
    decode (encode i ++ t) = .ok i := by
  rw [encode_eq_header_append_payload]
  simp only [List.cons_append]
  rw [decode_cons_toByte, be16_hi8_lo8, decodePayload_payload_append hwf]

theorem decode_encode {i : Instr} (hwf : i.wf = true) : decode (encode i) = .ok i := by
  simpa using decode_encode_append hwf []

/-- A payload that decodes is that of a well-formed instruction with the header it was read behind, and
ignored bytes (R62 to R65). -/
theorem decodePayload_eq_ok {fc : FunctionCode} {u : Byte} {a : Word} {p : Frame} {i : Instr}
    (h : decodePayload fc u a p = .ok i) :
    i.wf = true ∧ i.functionCode = fc ∧ i.unit = u ∧ i.start = a ∧ ∃ t, p = i.payload ++ t := by
  rcases Nat.lt_or_ge p.length 2 with hshort | hlong
  · rw [decodePayload_of_length_lt_two hshort] at h
    cases h
  match fc, p with
  | .readHolding, x :: l :: t | .readInput, x :: l :: t | .writeSingle, x :: l :: t =>
    cases h
    exact ⟨rfl, rfl, rfl, rfl, t, by simp [Instr.payload]⟩
  | .writeMultiple, [_, _] => cases h
  | .writeMultiple, x :: l :: b :: data =>
    rw [decodePayload_writeMultiple] at h
    split_ifs at h with hlt
    have hdata : 2 * (be16 x l).toNat ≤ data.length := Nat.le_of_not_lt hlt
    cases h
    refine ⟨wrm_wf_iff.mpr (takeWords_length _ _ hdata), rfl, rfl, rfl,
      data.drop (2 * (be16 x l).toNat), ?_⟩
    simp [Instr.payload, putWords_takeWords _ _ hdata]

/-- A frame that decodes has a whole header with a supported function code (R142, R149). -/
theorem exists_header_of_decode {f : Frame} {i : Instr} (h : decode f = .ok i) :
    ∃ (fc : FunctionCode) (u ah al : Byte) (p : Frame),
      f = u :: fc.toByte :: ah :: al :: p ∧ decodePayload fc u (be16 ah al) p = .ok i := by
  match f with
  | [] | [_] | [_, _] | [_, _, _] => cases h
  | u :: code :: ah :: al :: p =>
    cases hfc : FunctionCode.ofByte code with
    | none =>
      have hlen : 4 ≤ (u :: code :: ah :: al :: p).length := by simp
      rw [decode_of_unsupported hlen hfc] at h
      cases h
    | some fc =>
      obtain rfl := FunctionCode.eq_toByte_of_ofByte hfc
      exact ⟨fc, u, ah, al, p, rfl, by rwa [decode_cons_toByte] at h⟩

/-- A frame that decodes is the encoding of a well-formed instruction and ignored bytes (R62 to R65). -/
theorem exists_encode_append_of_decode {f : Frame} {i : Instr} (h : decode f = .ok i) :
    i.wf = true ∧ ∃ t, f = encode i ++ t := by
  obtain ⟨fc, u, ah, al, p, rfl, hp⟩ := exists_header_of_decode h
  obtain ⟨hwf, rfl, rfl, hstart, t, rfl⟩ := decodePayload_eq_ok hp
  refine ⟨hwf, t, ?_⟩
  rw [encode_eq_header_append_payload, hstart, hi8_be16, lo8_be16]
  rfl

/-- The payload of a supported request that fails the length test is too short (R73, R156). -/
theorem decodePayload_of_not_longEnough {fc : FunctionCode} {u ah al : Byte} {p : Frame}
    (h : longEnough (u :: fc.toByte :: ah :: al :: p) = false) :
    decodePayload fc u (be16 ah al) p = .error .underlength := by
  have hfc : FunctionCode.ofByte (byteAt (u :: fc.toByte :: ah :: al :: p) 1) = some fc :=
    fc.ofByte_toByte
  rcases Nat.lt_or_ge p.length 2 with hshort | hlong
  · exact decodePayload_of_length_lt_two hshort fc u _
  by_cases hwrm : fc = .writeMultiple
  · subst hwrm
    match p with
    | [_, _] => rfl
    | x :: l :: b :: data =>
      have hdata : data.length < 2 * (be16 x l).toNat := by
        simp [longEnough_of_writeMultiple hfc, byteAt] at h
        omega
      rw [decodePayload_writeMultiple, if_pos hdata]
  · rw [longEnough_of_ne_writeMultiple hfc hwrm] at h
    simp at h
    omega

/-- A supported request that fails the length test is underlength (R73, R156). -/
theorem decode_of_not_longEnough {g : Frame} (hlen : 4 ≤ g.length)
    (hcode : g.getD 1 0 ∈ ([0x03, 0x04, 0x06, 0x10] : List Byte)) (hlong : longEnough g = false) :
    decode g = .error .underlength := by
  match g with
  | [] | [_] | [_, _] | [_, _, _] => simp at hlen
  | u :: code :: ah :: al :: p =>
    cases hfc : FunctionCode.ofByte code with
    | none => exact absurd hcode (FunctionCode.ofByte_eq_none_iff.mp hfc)
    | some fc =>
      obtain rfl := FunctionCode.eq_toByte_of_ofByte hfc
      rw [decode_cons_toByte]
      exact decodePayload_of_not_longEnough hlong

/-- What the decoder says of a frame, and when: the three tests in their order (R142, R149, R73). -/
theorem decode_cases (f : Frame) :
    (f.length < 4 ∧ decode f = .error .shortFrame) ∨
    (4 ≤ f.length ∧ f.getD 1 0 ∉ ([0x03, 0x04, 0x06, 0x10] : List Byte) ∧
      decode f = .error .unsupportedFc) ∨
    (4 ≤ f.length ∧ f.getD 1 0 ∈ ([0x03, 0x04, 0x06, 0x10] : List Byte) ∧ longEnough f = false ∧
      decode f = .error .underlength) ∨
    (4 ≤ f.length ∧ f.getD 1 0 ∈ ([0x03, 0x04, 0x06, 0x10] : List Byte) ∧ longEnough f = true ∧
      ∃ i, decode f = .ok i) := by
  rcases Nat.lt_or_ge f.length 4 with hshort | hlen
  · exact .inl ⟨hshort, decode_of_length_lt_four hshort⟩
  by_cases hcode : f.getD 1 0 ∈ ([0x03, 0x04, 0x06, 0x10] : List Byte)
  · cases hlong : longEnough f with
    | false => exact .inr (.inr (.inl ⟨hlen, hcode, rfl, decode_of_not_longEnough hlen hcode hlong⟩))
    | true => exact .inr (.inr (.inr ⟨hlen, hcode, rfl, exists_decode_of_longEnough hlen hlong⟩))
  · exact .inr (.inl ⟨hlen, hcode,
      decode_of_unsupported hlen (FunctionCode.ofByte_eq_none_iff.mpr hcode)⟩)

end Sys2Proof

namespace Sys2Proof.Proofs

open Sys2Proof Sys2Proof.Machine

/-- Settles O1: behind the header of the encoding stands its payload, and that decodes. -/
theorem decodeOfEncodeIsIdentity : Obligations.DecodeOfEncodeIsIdentity :=
  fun _ t hwf => decode_encode_append hwf t

/-- Settles O2: the header is read as it is written, and so is the payload behind it. -/
theorem decodedFrameStartsWithItsEncoding : Obligations.DecodedFrameStartsWithItsEncoding :=
  fun _ _ h => exists_encode_append_of_decode h

/-- Settles O3: the tests exclude one another, and each has its own cause. -/
theorem decodeRejectsExactly : Obligations.DecodeRejectsExactly := by
  intro f
  rcases decode_cases f with ⟨hlen, h⟩ | ⟨hlen, hcode, h⟩ | ⟨hlen, hcode, hlong, h⟩ |
    ⟨hlen, hcode, hlong, i, h⟩
  · have hnot : ¬ 4 ≤ f.length := Nat.not_le.mpr hlen
    simp only [h, hlen, hnot]
    simp
  · simp only [h, hlen, hcode, Nat.not_lt.mpr hlen]
    simp
  · simp only [h, hlen, hcode, hlong, Nat.not_lt.mpr hlen]
    simp
  · simp only [h, hlen, hcode, hlong, Nat.not_lt.mpr hlen]
    simp

/-- Settles O4: the four requests are written as the decoder reads them. -/
theorem writtenOutRequestsDecode : Obligations.WrittenOutRequestsDecode :=
  ⟨rfl, rfl, rfl, rfl⟩

end Sys2Proof.Proofs
end

section
/-! PROOFS. The bit steps of the CRC generator are injective, so no change of an input byte is lost, and
on a word whose tested bits are 0 they only shift (R101 to R104). -/

namespace Sys2Proof.Machine

@[simp] theorem lo8_zext16 (b : Byte) : lo8 (zext16 b) = b := by
  have hb := b.isLt
  apply BitVec.eq_of_toNat_eq
  rw [lo8_toNat, zext16, BitVec.toNat_setWidth]
  omega

/-- A bit step that tests a 0 shifts (R103). -/
theorem crcBitStep_of_even {x : Word} (h : x.getLsbD 0 = false) : crcBitStep x = x >>> 1 := by
  rw [crcBitStep, h, if_neg Bool.false_ne_true]

/-- A bit step that tests a 1 shifts and adds the polynomial (R103). -/
theorem crcBitStep_of_odd {x : Word} (h : x.getLsbD 0 = true) :
    crcBitStep x = (x >>> 1) ^^^ crcPoly := by
  rw [crcBitStep, h, if_pos rfl]

/-- Bit 15 after a bit step is the bit that was tested: the shift leaves it 0, and bit 15 of the
polynomial is 1 (R103). -/
theorem crcBitStep_getLsbD_15 (x : Word) : (crcBitStep x).getLsbD 15 = x.getLsbD 0 := by
  have htop : (x >>> 1).getLsbD 15 = false := by simp
  have hpoly : crcPoly.getLsbD 15 = true := rfl
  cases h : x.getLsbD 0 with
  | false => rw [crcBitStep_of_even h, htop]
  | true => rw [crcBitStep_of_odd h, BitVec.getLsbD_xor, htop, hpoly, Bool.false_xor]

/-- A word is its lowest bit and what a shift by one leaves of it. -/
theorem eq_of_shiftRight_one_eq {x y : Word} (hbit : x.getLsbD 0 = y.getLsbD 0)
    (hshift : x >>> 1 = y >>> 1) : x = y := by
  refine BitVec.eq_of_getLsbD_eq fun i _ => ?_
  cases i with
  | zero => exact hbit
  | succ i =>
    have hi := congrArg (fun w => w.getLsbD i) hshift
    simpa [Nat.add_comm] using hi

/-- A bit step is injective: bit 15 after it tells which bit was tested, and so whether the polynomial
was added. -/
theorem crcBitStep_injective : Function.Injective crcBitStep := by
  intro x y h
  have hbit : x.getLsbD 0 = y.getLsbD 0 := by
    rw [← crcBitStep_getLsbD_15 x, h, crcBitStep_getLsbD_15]
  refine eq_of_shiftRight_one_eq hbit ?_
  cases hx : x.getLsbD 0 with
  | false =>
    have hy : y.getLsbD 0 = false := hbit ▸ hx
    rwa [crcBitStep_of_even hx, crcBitStep_of_even hy] at h
  | true =>
    have hy : y.getLsbD 0 = true := hbit ▸ hx
    rwa [crcBitStep_of_odd hx, crcBitStep_of_odd hy, BitVec.xor_left_inj] at h

theorem crcBitSteps_injective (n : Nat) : Function.Injective (crcBitSteps n) := by
  induction n with
  | zero => exact Function.injective_id
  | succ n ih => exact ih.comp crcBitStep_injective

/-- Bit steps that test zeros only shift (R103). -/
theorem crcBitSteps_of_low_zero (n : Nat) {x : Word} (h : ∀ i < n, x.getLsbD i = false) :
    crcBitSteps n x = x >>> n := by
  induction n generalizing x with
  | zero => simp [crcBitSteps]
  | succ n ih =>
    have hlow : ∀ i < n, (x >>> 1).getLsbD i = false := fun i hi => by
      simpa [Nat.add_comm] using h (i + 1) (by omega)
    rw [crcBitSteps, crcBitStep_of_even (h 0 (by omega)), ih hlow, Nat.add_comm, BitVec.shiftRight_add]

/-- Two accumulators that differ stay different over any bytes (R102, R104). -/
theorem foldl_crcFeedByte_injective (q : Frame) : Function.Injective (q.foldl crcFeedByte) := by
  induction q with
  | nil => exact Function.injective_id
  | cons b q ih =>
    refine ih.comp fun x y h => ?_
    have hsteps := crcBitSteps_injective 8 h
    exact (BitVec.xor_left_inj _).mp hsteps

/-- Two bytes that differ leave different accumulators (R102). -/
theorem crcFeedByte_injective_byte (x : Word) : Function.Injective (crcFeedByte x) := by
  intro b c h
  have habsorbed := crcBitSteps_injective 8 h
  have hbytes : zext16 b = zext16 c := (BitVec.xor_right_inj _).mp habsorbed
  rw [← lo8_zext16 b, hbytes, lo8_zext16]

/-- Feeding the low byte of the accumulator leaves its high byte: the eight bits tested are 0. -/
theorem crcFeedByte_lo8 (x : Word) : crcFeedByte x (lo8 x) = zext16 (hi8 x) := by
  have hlow : ∀ i < 8, (x ^^^ zext16 (lo8 x)).getLsbD i = false := fun i hi => by
    simp [zext16, lo8, hi]
    omega
  rw [crcFeedByte, crcBitSteps_of_low_zero 8 hlow]
  refine BitVec.eq_of_getLsbD_eq fun i hi => ?_
  by_cases h : i < 8
  · simp [zext16, lo8, hi8, hi, h]
  · have htop : x.getLsbD (8 + i) = false := BitVec.getLsbD_of_ge x _ (by omega)
    simp [zext16, lo8, hi8, h, htop]

/-- Feeding the byte that the accumulator holds leaves 0. -/
theorem crcFeedByte_zext16 (b : Byte) : crcFeedByte (zext16 b) b = 0 := by
  rw [crcFeedByte, BitVec.xor_self, crcBitSteps_of_low_zero 8 (by simp)]
  simp

end Sys2Proof.Machine

namespace Sys2Proof.Proofs

open Sys2Proof Sys2Proof.Machine

/-- Settles O7: the low byte of the trailer shifts the high byte of the CRC down, and the high byte
clears it. -/
theorem crcOfFrameWithTrailerIsZero : Obligations.CrcOfFrameWithTrailerIsZero := by
  intro B
  calc crc16 (B ++ [lo8 (crc16 B), hi8 (crc16 B)])
      = crcFeedByte (crcFeedByte (crc16 B) (lo8 (crc16 B))) (hi8 (crc16 B)) :=
        (foldl_crcFeedByte_crc16 B _).symm
    _ = 0 := by rw [crcFeedByte_lo8, crcFeedByte_zext16]

/-- Settles O8: the changed byte leaves another accumulator, and the bytes behind it keep the two
apart. -/
theorem crcDetectsOneChangedByte : Obligations.CrcDetectsOneChangedByte := by
  intro p q b c hne h
  have hsame : crcFeedByte (crc16 p) b = crcFeedByte (crc16 p) c := by
    apply foldl_crcFeedByte_injective q
    calc q.foldl crcFeedByte (crcFeedByte (crc16 p) b)
        = crc16 (p ++ b :: q) := foldl_crcFeedByte_crc16 p (b :: q)
      _ = crc16 (p ++ c :: q) := h
      _ = q.foldl crcFeedByte (crcFeedByte (crc16 p) c) := (foldl_crcFeedByte_crc16 p (c :: q)).symm
  exact hne (crcFeedByte_injective_byte _ hsame)

/-- Settles O6: the words of the reference unfold bit step by bit step; the nine bytes of the check
value are left to the kernel. -/
theorem crcReferenceValues : Obligations.CrcReferenceValues := by
  have hcheck : crc16 [0x31, 0x32, 0x33, 0x34, 0x35, 0x36, 0x37, 0x38, 0x39] = 0x4B37 := by
    decide +kernel
  exact ⟨rfl, rfl, rfl, rfl, rfl, rfl, rfl, hcheck⟩

end Sys2Proof.Proofs
end

section
/-! PROOFS. A bank in canonical form is its words and nothing else (R23), so banks are compared by what
they read: rewrites, the order of a block's writes, and what a table leaves (R121, R124, R126, R129). -/

namespace Sys2Proof.Machine

/-! ### A canonical bank is determined by its words -/

/-- A word that is not 0 is read from a listed cell. -/
theorem Bank.mem_of_find_ne_zero {k : Nat} {b : Bank} (h : Bank.find k b ≠ 0) :
    (k, Bank.find k b) ∈ b := by
  induction b with
  | nil => exact absurd rfl h
  | cons c b ih =>
    by_cases hk : c.1 = k
    · simp [Bank.find, ← hk]
    · rw [Bank.find, if_neg hk] at h ⊢
      exact List.mem_cons_of_mem c (ih h)

/-- A listed cell of a canonical bank is the one its key finds. -/
theorem Bank.find_eq_of_mem {k : Nat} {v : Word} {b : Bank}
    (hsorted : b.Pairwise fun c d => c.1 < d.1) (h : (k, v) ∈ b) : Bank.find k b = v := by
  induction b with
  | nil => cases h
  | cons c b ih =>
    obtain ⟨hfirst, hrest⟩ := List.pairwise_cons.mp hsorted
    rcases List.mem_cons.mp h with rfl | hmem
    · exact if_pos rfl
    · have hlt : c.1 < k := hfirst _ hmem
      rw [Bank.find, if_neg (Nat.ne_of_lt hlt), ih hrest hmem]

/-- The cells of a canonical bank are its words that are not 0. -/
theorem Bank.mem_iff_find {k : Nat} {v : Word} {b : Bank} (h : b.Wf) :
    (k, v) ∈ b ↔ k < 65536 ∧ v ≠ 0 ∧ Bank.find k b = v := by
  obtain ⟨hsorted, hcells⟩ := h
  constructor
  · intro hmem
    obtain ⟨hkey, hword⟩ := hcells _ hmem
    exact ⟨hkey, hword, Bank.find_eq_of_mem hsorted hmem⟩
  · rintro ⟨-, hword, rfl⟩
    exact Bank.mem_of_find_ne_zero hword

theorem Bank.nodup_of_wf {b : Bank} (h : b.Wf) : b.Nodup :=
  h.1.imp fun hlt heq => absurd (congrArg Prod.fst heq) (Nat.ne_of_lt hlt)

/-- Canonical banks that read alike are the same list (R23). -/
theorem Bank.ext_of_read {b c : Bank} (hb : b.Wf) (hc : c.Wf) (h : ∀ a, b.read a = c.read a) :
    b = c := by
  have hfind : ∀ k < 65536, Bank.find k b = Bank.find k c := fun k hk => by
    simpa [Bank.read, Nat.mod_eq_of_lt hk] using h (BitVec.ofNat 16 k)
  have hmem : ∀ x, x ∈ b ↔ x ∈ c := fun ⟨k, v⟩ => by
    rw [Bank.mem_iff_find hb, Bank.mem_iff_find hc]
    exact and_congr_right fun hk => by rw [hfind k hk]
  have hperm : b.Perm c :=
    (List.perm_ext_iff_of_nodup (Bank.nodup_of_wf hb) (Bank.nodup_of_wf hc)).mpr hmem
  exact hperm.eq_of_pairwise (fun _ _ _ _ hlt hgt => absurd hgt (Nat.lt_asymm hlt)) hb.1 hc.1

/-- To write the word that is there is no change (R124). -/
theorem Bank.write_read_self {b : Bank} (h : b.Wf) (a : Word) : b.write a (b.read a) = b := by
  refine Bank.ext_of_read (Bank.write_wf h _ _) h fun k => ?_
  by_cases hk : k = a
  · rw [hk, Bank.read_write_same]
  · rw [Bank.read_write_other b hk]

/-! ### Block writes in any order -/

/-- The writes of a block, value `i` of `vs` to `ea(start, i)`, for the indices in the order given. -/
def Bank.writeInOrder (start : Word) (vs : List Word) (order : List Nat) (b : Bank) : Bank :=
  order.foldl (fun x i => x.write (ea start i) (vs.getD i 0)) b

/-- The block write of the model takes the indices in rising order (R129). -/
theorem Bank.writeFrom_eq_foldl (start : Word) (vs : List Word) (i : Nat) (b : Bank) :
    Bank.writeFrom start i vs b =
      (List.range vs.length).foldl (fun x j => x.write (ea start (i + j)) (vs.getD j 0)) b := by
  induction vs generalizing i b with
  | nil => rfl
  | cons v vs ih =>
    rw [Bank.writeFrom, ih, List.length_cons, List.range_succ_eq_map, List.foldl_cons, List.foldl_map]
    simp only [Nat.succ_eq_add_one, ← Nat.add_assoc, Nat.add_right_comm i 1]
    rfl

theorem Bank.writeFrom_eq_writeInOrder (start : Word) (vs : List Word) (b : Bank) :
    Bank.writeFrom start 0 vs b = Bank.writeInOrder start vs (List.range vs.length) b := by
  simp only [Bank.writeFrom_eq_foldl, Nat.zero_add, Bank.writeInOrder]

theorem Bank.writeInOrder_wf (start : Word) (vs : List Word) (order : List Nat) {b : Bank}
    (h : b.Wf) : (Bank.writeInOrder start vs order b).Wf := by
  induction order generalizing b with
  | nil => exact h
  | cons i order ih => exact ih (Bank.write_wf h _ _)

/-- Seen as dense banks, writes in an order are updates in that order (R23). -/
theorem Bank.read_writeInOrder (start : Word) (vs : List Word) (order : List Nat) (b : Bank) :
    (Bank.writeInOrder start vs order b).read =
      order.foldl (fun y i => DenseBank.update y (ea start i) (vs.getD i 0)) b.read :=
  (List.foldl_hom Bank.read fun x _ => (Bank.read_write_eq_update x _ _).symm).symm

/-- Updates of a dense bank at two addresses commute. -/
theorem DenseBank.update_comm (y : DenseBank) {a b : Word} (h : a ≠ b) (v w : Word) :
    (y.update a v).update b w = (y.update b w).update a v := by
  funext k
  by_cases hk : k = a
  · have hkb : k ≠ b := hk ▸ h
    simp only [DenseBank.update, if_pos hk, if_neg hkb]
  · simp only [DenseBank.update, if_neg hk]

/-- The addresses of a block are distinct, so the order of its writes cannot be read (R121, R129). -/
theorem Bank.read_writeInOrder_perm {order order' : List Nat} (hperm : order.Perm order')
    (hlt : ∀ i ∈ order, i < 65536) (start : Word) (vs : List Word) (b : Bank) :
    (Bank.writeInOrder start vs order b).read = (Bank.writeInOrder start vs order' b).read := by
  rw [Bank.read_writeInOrder, Bank.read_writeInOrder]
  refine hperm.foldl_eq' (fun i hi j hj y => ?_) b.read
  by_cases hij : i = j
  · rw [hij]
  · exact DenseBank.update_comm y (fun h => hij (ea_injective start (hlt i hi) (hlt j hj) h)) _ _

/-! ### What a table leaves -/

/-- A table leaves the words at other addresses alone (R126). -/
theorem Bank.read_foldl_write_of_not_mem {a : Word} (t : InitTable) (b : Bank)
    (h : a ∉ t.map Prod.fst) : (t.foldl (fun b p => b.write p.1 p.2) b).read a = b.read a := by
  induction t generalizing b with
  | nil => rfl
  | cons p t ih =>
    obtain ⟨hfirst, hrest⟩ := not_or.mp (mt List.mem_cons.mpr h)
    rw [List.foldl_cons, ih _ hrest, Bank.read_write_other b hfirst]

/-- Of a table with distinct addresses every pair is stored (R126). -/
theorem Bank.read_foldl_write_of_mem {p : Word × Word} (t : InitTable) (b : Bank)
    (hdistinct : (t.map Prod.fst).Nodup) (h : p ∈ t) :
    (t.foldl (fun b p => b.write p.1 p.2) b).read p.1 = p.2 := by
  induction t generalizing b with
  | nil => cases h
  | cons q t ih =>
    obtain ⟨hfirst, hrest⟩ := List.nodup_cons.mp hdistinct
    rcases List.mem_cons.mp h with rfl | hmem
    · rw [List.foldl_cons, Bank.read_foldl_write_of_not_mem t _ hfirst, Bank.read_write_same]
    · exact ih _ hrest hmem

theorem Bank.read_ofTable_of_not_mem {a : Word} {t : InitTable} (h : a ∉ t.map Prod.fst) :
    (Bank.ofTable t).read a = 0 := Bank.read_foldl_write_of_not_mem t [] h

theorem Bank.read_ofTable_of_mem {p : Word × Word} {t : InitTable}
    (hdistinct : (t.map Prod.fst).Nodup) (h : p ∈ t) : (Bank.ofTable t).read p.1 = p.2 :=
  Bank.read_foldl_write_of_mem t [] hdistinct h

end Sys2Proof.Machine

namespace Sys2Proof.Proofs

open Sys2Proof Sys2Proof.Machine

/-- Settles O9: two indices below 65536 have one address only if they are one index. -/
theorem blockAddressesWrapAndAreDistinct : Obligations.BlockAddressesWrapAndAreDistinct := by
  intro start count
  refine ⟨ea_toNat start, fun i j hi hj hne heq => hne ?_⟩
  have hcount := count.isLt
  exact ea_injective start (hi.trans hcount) (hj.trans hcount) heq

/-- Settles O11: the cells of a canonical bank are its words that are not 0, in rising order. -/
theorem banksThatReadAlikeAreEqual : Obligations.BanksThatReadAlikeAreEqual :=
  fun _ _ hb hc h => Bank.ext_of_read hb hc h

/-- Settles O12: the write leaves a canonical bank that reads as before. -/
theorem rewritingTheSameValueChangesNothing : Obligations.RewritingTheSameValueChangesNothing := by
  intro s a hwf
  have hsame : s.holding.write a (s.holding.read a) = s.holding := Bank.write_read_self hwf a
  rw [State.readHolding, State.writeHolding, hsame]

/-- Settles O13: both orders leave canonical banks, and the two read alike. -/
theorem blockWriteOrderIsUnobservable : Obligations.BlockWriteOrderIsUnobservable := by
  intro b start vs order hwf hlen hperm
  have hlt : ∀ i ∈ order, i < 65536 := fun i hi => by
    have hi' : i < vs.length := List.mem_range.mp (hperm.mem_iff.mp hi)
    omega
  rw [Bank.writeFrom_eq_writeInOrder]
  exact Bank.ext_of_read (Bank.writeInOrder_wf start vs order hwf) (Bank.writeInOrder_wf start vs _ hwf)
    (congrFun (Bank.read_writeInOrder_perm hperm hlt start vs b))

end Sys2Proof.Proofs
end

section
/-! PROOFS. The meaning of an instruction in one equation: the bank it leaves, the body of its reply or
the cause of its drop, and nothing else (R144 to R148, R150, R154). -/

namespace Sys2Proof

open Sys2Proof.Machine

/-! ### The parts of the equation -/

/-- The holding bank after the instruction (R147, R148); a read leaves it as it is (R48). -/
def Instr.store : Instr → Bank → Bank
  | .rdh _ _ _, b | .rdi _ _ _, b => b
  | .wrs _ a v, b => b.write a v
  | .wrm _ a _ _ vs, b => Bank.writeFrom a 0 vs b

/-- What a read replies behind its function code, the byte count and the words, or the cause of its drop
(R66, R145, R146, R154). -/
def Machine.State.readBody (s : State) (fc : FunctionCode) (a n : Word) : Except DropCause Frame :=
  if byteCountDrops s.config n then .error .byteCountRange
  else .ok (BitVec.ofNat 8 (2 * n.toNat) :: putWords ((s.bank (bankSelect fc)).readBlock a n.toNat))

/-- What an instruction replies behind its function code (R66 to R68), or the cause of its drop. -/
def Instr.replyBody (s : State) : Instr → Except DropCause Frame
  | .rdh _ a n => s.readBody .readHolding a n
  | .rdi _ a n => s.readBody .readInput a n
  | .wrs _ a v => .ok (wordBytes a ++ wordBytes v)
  | .wrm _ a n _ _ => .ok (wordBytes a ++ wordBytes n)

/-- The PDU of a reply: unit id and function code of the request, then the body (R151). -/
def Instr.replyPdu (i : Instr) (body : Frame) : Frame := i.unit :: i.functionCode.toByte :: body

/-- The result of the frame, from the body of the reply or the cause of the drop (R150, R180). -/
def Instr.result (i : Instr) : Except DropCause Frame → Result
  | .ok body => .reply (i.replyPdu body ++ crcTrailer (crc16 (i.replyPdu body)))
  | .error cause => .noReply cause

/-- The accumulator after the frame: the CRC of the reply, or what it was (R107, R183). -/
def Instr.accumulator (i : Instr) (acc : Word) : Except DropCause Frame → Word
  | .ok body => crc16 (i.replyPdu body)
  | .error _ => acc

/-- The state after an instruction. -/
def Machine.State.after (s : State) (i : Instr) : State :=
  { s with
    holding := i.store s.holding
    crcAcc := i.accumulator s.crcAcc (i.replyBody s)
    egress := s.egress ++ [i.result (i.replyBody s)] }

@[simp] theorem Machine.State.after_holding (s : State) (i : Instr) :
    (s.after i).holding = i.store s.holding := rfl

@[simp] theorem Machine.State.after_input (s : State) (i : Instr) : (s.after i).input = s.input := rfl

@[simp] theorem Machine.State.after_egress (s : State) (i : Instr) :
    (s.after i).egress = s.egress ++ [i.result (i.replyBody s)] := rfl

theorem Machine.State.after_of_reply {s : State} {i : Instr} {body : Frame}
    (h : i.replyBody s = .ok body) :
    s.after i =
      { s with
        holding := i.store s.holding
        crcAcc := crc16 (i.replyPdu body)
        egress := s.egress ++ [.reply (i.replyPdu body ++ crcTrailer (crc16 (i.replyPdu body)))] } := by
  rw [State.after, h]
  rfl

/-! ### The equation -/

theorem exec_eq_after_of_read {i : Instr} {u : Byte} {a n : Word}
    (hi : i = .rdh u a n ∨ i = .rdi u a n) (s : State) : exec i s = .next (s.after i) := by
  have hbody : i.replyBody s = s.readBody i.functionCode a n := by rcases hi with rfl | rfl <;> rfl
  have hstore : i.store s.holding = s.holding := by rcases hi with rfl | rfl <;> rfl
  have hunit : i.unit = u := by rcases hi with rfl | rfl <;> rfl
  rw [exec_read hi, State.after, hstore, hbody, State.readBody]
  rcases s.answerRead_cases i.functionCode u a n with ⟨hdrops, e⟩ | ⟨hdrops, e⟩
  · rw [e, hdrops, if_pos rfl]
    rfl
  · rw [e, hdrops, if_neg Bool.false_ne_true, State.sendReply_eq, readPdu, Bank.readBlock_length,
      ← hunit]
    rfl

/-- A term that some request spells completes (R145 to R148). -/
theorem exec_eq_after {i : Instr} (hwf : i.wf = true) (s : State) : exec i s = .next (s.after i) := by
  cases i with
  | rdh u a n => exact exec_eq_after_of_read (.inl rfl) s
  | rdi u a n => exact exec_eq_after_of_read (.inr rfl) s
  | wrs u a v =>
    have hpdu : echoPdu .writeSingle u a v =
      (Instr.wrs u a v).replyPdu (wordBytes a ++ wordBytes v) := rfl
    rw [exec, execWrs, State.sendReply_eq, hpdu, State.after_of_reply rfl]
    rfl
  | wrm u a n b vs =>
    have hpdu : echoPdu .writeMultiple u a n =
      (Instr.wrm u a n b vs).replyPdu (wordBytes a ++ wordBytes n) := rfl
    rw [exec, execWrm, if_pos (wrm_wf_iff.mp hwf), State.sendReply_eq, hpdu, State.after_of_reply rfl]
    rfl

/-- Every other term is refused (log entry 8). -/
theorem exec_eq_refused {i : Instr} (hwf : i.wf = false) (s : State) :
    exec i s = .refused .illFormed := by
  cases i with
  | rdh u a n | rdi u a n | wrs u a v => cases hwf
  | wrm u a n b vs =>
    have hcount : vs.length ≠ n.toNat := mt wrm_wf_iff.mpr (Bool.eq_false_iff.mp hwf)
    rw [exec, execWrm, if_neg hcount]

theorem eq_after_of_exec {i : Instr} {s t : State} (h : exec i s = .next t) : t = s.after i := by
  cases hwf : i.wf with
  | true =>
    rw [exec_eq_after hwf] at h
    cases h
    rfl
  | false =>
    rw [exec_eq_refused hwf] at h
    cases h

/-! ### Reads -/

/-- A read that has a reply: at most 127 words, or any number under `Truncate` (R154). -/
theorem Machine.State.readBody_of_fits {s : State} {n : Word}
    (h : n.toNat ≤ 127 ∨ s.config.byteCountPolicy = .truncate) (fc : FunctionCode) (a : Word) :
    s.readBody fc a n =
      .ok (BitVec.ofNat 8 (2 * n.toNat) ::
        (List.range n.toNat).flatMap fun i => wordBytes ((s.bank (bankSelect fc)).read (ea a i))) := by
  rw [State.readBody, (byteCountDrops_eq_false s.config n).mpr h, if_neg Bool.false_ne_true, putWords,
    Bank.readBlock, List.flatMap_map]

/-- A read leaves the holding bank (R48). -/
theorem Instr.store_of_read {i : Instr} (h : directionSelect i.functionCode = .read) (b : Bank) :
    i.store b = b := by
  cases i with
  | rdh u a n | rdi u a n => rfl
  | wrs u a v | wrm u a n c vs => cases h

theorem Instr.wf_of_read {i : Instr} (h : directionSelect i.functionCode = .read) : i.wf = true := by
  cases i with
  | rdh u a n | rdi u a n => rfl
  | wrs u a v | wrm u a n c vs => cases h

/-- What a read finds is in the words of the selected bank and in the parameters (R120). -/
theorem Machine.State.readBody_congr {s s' : State} {fc : FunctionCode} (hconfig : s'.config = s.config)
    (hbank : ∀ a, (s'.bank (bankSelect fc)).read a = (s.bank (bankSelect fc)).read a) (a n : Word) :
    s'.readBody fc a n = s.readBody fc a n := by
  simp only [State.readBody, hconfig, Bank.readBlock, hbank]

theorem Instr.replyBody_congr {s s' : State} {i : Instr} (hconfig : s'.config = s.config)
    (hbank : ∀ a, (s'.bank (bankSelect i.functionCode)).read a =
      (s.bank (bankSelect i.functionCode)).read a) :
    i.replyBody s' = i.replyBody s := by
  cases i with
  | rdh u a n => exact State.readBody_congr (fc := .readHolding) hconfig hbank a n
  | rdi u a n => exact State.readBody_congr (fc := .readInput) hconfig hbank a n
  | wrs u a v | wrm u a n c vs => rfl

/-! ### Writes -/

@[simp] theorem ea_zero (start : Word) : ea start 0 = start := by
  simp [ea]

/-- A write stores its values from its address on (R147, R148). -/
theorem Instr.store_of_write {i : Instr} {u : Byte} {a n : Word} {c : Byte} {vs : List Word}
    (hi : (∃ v, vs = [v] ∧ i = .wrs u a v) ∨ i = .wrm u a n c vs) (b : Bank) :
    i.store b = Bank.writeFrom a 0 vs b := by
  rcases hi with ⟨v, rfl, rfl⟩ | rfl
  · rw [Bank.writeFrom, Bank.writeFrom, ea_zero, Instr.store]
  · rfl

end Sys2Proof

namespace Sys2Proof.Proofs

open Sys2Proof Sys2Proof.Machine

/-- Settles O14: the table is read off the function codes; a read gives the result made of what it finds
in its bank, and a write stores in `H` alone. -/
theorem functionCodeSelectsBankAndDirection : Obligations.FunctionCodeSelectsBankAndDirection := by
  refine ⟨fun s => ⟨rfl, rfl⟩, fun i => ?_⟩
  have hcode : (encode i).getD 1 0 = i.functionCode.toByte := by
    rw [encode_eq_header_append_payload]
    rfl
  refine ⟨hcode, ?_, fun hread s s' hconfig hbank => ?_,
    fun hwrite => ⟨?_, fun s t => exec_keeps_input⟩⟩
  · rw [hcode]
    cases i.functionCode <;> decide
  · have hwf := Instr.wf_of_read hread
    refine ⟨s.after i, s'.after i, i.result (i.replyBody s), exec_eq_after hwf s, exec_eq_after hwf s',
      rfl, ?_, Instr.store_of_read hread s.holding, rfl⟩
    rw [State.after_egress, Instr.replyBody_congr hconfig hbank]
  · cases i with
    | rdh u a n | rdi u a n => cases hwrite
    | wrs u a v | wrm u a n c vs => rfl

/-- Settles O15: the body of the reply is the byte count and the words of `H`. -/
theorem rdhRepliesWithHoldingWords : Obligations.RdhRepliesWithHoldingWords := by
  intro s u a n hfits
  have hbody : (Instr.rdh u a n).replyBody s = _ := State.readBody_of_fits hfits .readHolding a
  rw [exec_eq_after rfl, State.after_of_reply hbody]
  rfl

/-- Settles O16: the body of the reply is the byte count and the words of `I`. -/
theorem rdiRepliesWithInputWords : Obligations.RdiRepliesWithInputWords := by
  intro s u a n hfits
  have hbody : (Instr.rdi u a n).replyBody s = _ := State.readBody_of_fits hfits .readInput a
  rw [exec_eq_after rfl, State.after_of_reply hbody]
  rfl

/-- Settles O18: unit id, function code, byte count, two bytes a word, and two of CRC. -/
theorem readReplyLengthAndByteCount : Obligations.ReadReplyLengthAndByteCount := by
  intro s u a n hn i hi
  have hread : i = .rdh u a n ∨ i = .rdi u a n := by simpa using hi
  rw [exec_read hread, State.answerRead]
  simp only [(byteCountDrops_eq_false s.config n).mpr (.inl hn), Bool.false_eq_true, if_false,
    State.sendReply_eq]
  refine ⟨_, _, rfl, rfl, ?_, ?_⟩
  · simp
    omega
  · simp [readPdu]
    omega

/-- Settles O19: the store is a write of one word, the body the address and the value. -/
theorem wrsStoresAndEchoes : Obligations.WrsStoresAndEchoes := by
  intro s u a v
  exact ⟨s.holding.write a v, exec_eq_after rfl s, Bank.read_write_same _ a v,
    fun k hk => Bank.read_write_other _ hk v⟩

/-- Settles O20: the store is a write of as many words as the count says, at distinct addresses, the
body the address and the count. -/
theorem wrmStoresAndEchoes : Obligations.WrmStoresAndEchoes := by
  intro s u a n b vs hwf
  have hcount : vs.length = n.toNat := wrm_wf_iff.mp hwf
  have hn := n.isLt
  refine ⟨Bank.writeFrom a 0 vs s.holding, exec_eq_after hwf s, fun i hi => ?_, fun k hk => ?_⟩
  · have hi' : i < vs.length := hcount ▸ hi
    have hinside := Bank.read_writeFrom_inside a vs 0 s.holding (by omega) i hi'
    rw [Nat.zero_add] at hinside
    rw [List.getD_eq_getElem vs 0 hi']
    exact hinside
  · refine Bank.read_writeFrom_outside a vs 0 s.holding fun j hj => ?_
    rw [Nat.zero_add]
    exact hk j (hcount ▸ hj)

/-- Settles O21: the count of the values is the one check of a term. -/
theorem illFormedWrmIsRefused : Obligations.IllFormedWrmIsRefused :=
  fun s _ _ _ _ _ hwf => exec_eq_refused hwf s

/-- Settles O22: the store of a read is no store, and its one result stands last. -/
theorem readRequestsChangeNoState : Obligations.ReadRequestsChangeNoState := by
  rintro s t u a n (h | h) <;> rw [eq_after_of_exec h]
  · exact ⟨fun _ => rfl, fun _ => rfl, _, rfl⟩
  · exact ⟨fun _ => rfl, fun _ => rfl, _, rfl⟩

/-- Settles O23: the store is a block write of the values, which leaves the words outside the block. -/
theorem writeRequestsChangeOnlyTheirWords : Obligations.WriteRequestsChangeOnlyTheirWords := by
  intro s t i u a n b vs hi h
  rw [eq_after_of_exec h]
  refine ⟨fun k hk => ?_, fun _ => rfl, _, rfl⟩
  rw [State.after_holding, Instr.store_of_write hi]
  exact Bank.read_writeFrom_outside a vs 0 s.holding (by simpa using hk)

end Sys2Proof.Proofs
end

section
/-! PROOFS. The request bytes of a frame: what the optional check lets through, and what a frame that
parses begins with (R61, R74, R75, R141). -/

namespace Sys2Proof.Machine

/-- A frame with its own CRC passes the check, which takes the CRC off again (R74, R141). -/
theorem checkRequest_append_crcTrailer {c : Config} (hon : c.checkRequestCrc = true) {f : Frame}
    (hlen : 4 ≤ f.length) : checkRequest c (f ++ crcTrailer (crc16 f)) = .ok f := by
  have hlong : ¬ (f ++ crcTrailer (crc16 f)).length < 6 := by
    simp
    omega
  have hbody : (f ++ crcTrailer (crc16 f)).take ((f ++ crcTrailer (crc16 f)).length - 2) = f := by
    simp
  have hhigh : (f ++ crcTrailer (crc16 f)).getD ((f ++ crcTrailer (crc16 f)).length - 1) 0 =
      hi8 (crc16 f) := by
    simp [crcTrailer]
  have hlow : (f ++ crcTrailer (crc16 f)).getD ((f ++ crcTrailer (crc16 f)).length - 2) 0 =
      lo8 (crc16 f) := by
    simp [crcTrailer]
  rw [checkRequest, if_pos hon, if_neg hlong, hbody, hhigh, hlow, be16_hi8_lo8, if_pos rfl]

theorem parse_append_crcTrailer {c : Config} (hon : c.checkRequestCrc = true) {f : Frame}
    (hlen : 4 ≤ f.length) : parse c (f ++ crcTrailer (crc16 f)) = decode f :=
  parse_of_checkRequest (checkRequest_append_crcTrailer hon hlen)

/-- A request sent as the configuration asks is parsed as it decodes (R74, R75). -/
theorem parse_wireFrame (c : Config) {f : Frame} (hlen : 4 ≤ f.length) :
    parse c (wireFrame c f) = decode f := by
  cases hcheck : c.checkRequestCrc with
  | true => rw [wireFrame, if_pos hcheck, parse_append_crcTrailer hcheck hlen]
  | false => simp [wireFrame, parse, checkRequest, hcheck]

/-- A request of a well-formed instruction, sent as the configuration asks, is parsed as it (R75). -/
theorem parse_wireFrame_encode (c : Config) {i : Instr} (hwf : i.wf = true) :
    parse c (wireFrame c (encode i)) = .ok i := by
  have hlen : 4 ≤ (encode i).length := by
    rw [encode_eq_header_append_payload]
    simp
  rw [parse_wireFrame c hlen, decode_encode hwf]

/-- The check takes bytes off the end of a frame at most (R141). -/
theorem exists_append_of_checkRequest {c : Config} {f g : Frame} (h : checkRequest c f = .ok g) :
    ∃ t, f = g ++ t := by
  rcases checkRequest_cases c f with ⟨-, hs⟩ | ⟨-, -, hs⟩ | ⟨hon, -, -, hs⟩ | ⟨-, -, -, hs⟩ <;>
    rw [hs] at h <;> cases h
  · exact ⟨[], by simp⟩
  · exact ⟨f.drop (f.length - 2), by simp [requestBody, hon]⟩

/-- A frame that parses is the encoding of a well-formed instruction and more bytes (R61 to R65). -/
theorem exists_encode_append_of_parse {c : Config} {f : Frame} {i : Instr} (h : parse c f = .ok i) :
    i.wf = true ∧ ∃ t, f = encode i ++ t := by
  cases hcheck : checkRequest c f with
  | error cause => simp [parse, hcheck] at h
  | ok g =>
    rw [parse_of_checkRequest hcheck] at h
    obtain ⟨hwf, t, hg⟩ := exists_encode_append_of_decode h
    obtain ⟨t', hf⟩ := exists_append_of_checkRequest hcheck
    exact ⟨hwf, t ++ t', by rw [hf, hg, List.append_assoc]⟩

/-- Bytes 0 and 1 of a frame that parses are its unit id and its function code (R61). -/
theorem header_of_parse {c : Config} {f : Frame} {i : Instr} (h : parse c f = .ok i) :
    f.getD 0 0 = i.unit ∧ f.getD 1 0 = i.functionCode.toByte := by
  obtain ⟨-, t, rfl⟩ := exists_encode_append_of_parse h
  rw [encode_eq_header_append_payload]
  exact ⟨rfl, rfl⟩

end Sys2Proof.Machine

namespace Sys2Proof.Proofs

open Sys2Proof Sys2Proof.Machine

/-- Settles O24: a frame that passes the check is parsed as its request bytes decode. -/
theorem stepRunsTheDecodedInstruction : Obligations.StepRunsTheDecodedInstruction := by
  intro s f rest g i hf hg hi
  exact hf.step_eq_exec ((parse_of_checkRequest hg).trans hi)

/-- Settles O25: the placed frame is taken by the next step, and parses as the table word decodes. -/
theorem placedTableWordRunsNext : Obligations.PlacedTableWordRunsNext := by
  intro s nbits w i h
  have hdecode : decode (tableFrame nbits w) = .ok i := by
    unfold decodeTableWord at h
    split at h
    next hok =>
      cases h
      exact hok
    next => cases h
  have hlen : 4 ≤ (tableFrame nbits w).length := by
    by_contra hshort
    rw [decode_of_length_lt_four (Nat.lt_of_not_le hshort)] at hdecode
    cases hdecode
  have htakes : (s.withFetchWord nbits w).Takes (wireFrame s.config (tableFrame nbits w)) s.ingress :=
    ⟨rfl, rfl, rfl⟩
  exact htakes.step_eq_exec ((parse_wireFrame s.config hlen).trans hdecode)

/-- Settles O28: the request bytes decode to no instruction, for they fail the length test. -/
theorem underlengthFramesAreDropped : Obligations.UnderlengthFramesAreDropped := by
  intro s f rest g hf hg hlen hcode hlong
  exact hf.step_eq_drop ((parse_of_checkRequest hg).trans (decode_of_not_longEnough hlen hcode hlong))

/-- Settles O29: the step is the answer to what the check lets through. -/
theorem requestCrcCheckIsOptional : Obligations.RequestCrcCheckIsOptional := by
  intro s f rest hf taken goesOn body sent
  have hgoesOn (g : Frame) : taken.answer (decode g) = goesOn g := by
    cases h : decode g <;> simp only [goesOn, h, State.answer]
  have hbody (hon : s.config.checkRequestCrc = true) : requestBody s.config f = body := if_pos hon
  have hchecked (hon : s.config.checkRequestCrc = true) : ¬ s.config.checkRequestCrc = false := by
    simp [hon]
  rw [hf.step_eq_answer]
  rcases checkRequest_cases s.config f with ⟨hoff, hs⟩ | ⟨hon, hlen, hs⟩ | ⟨hon, hlen, hcrc, hs⟩ |
    ⟨hon, hlen, hcrc, hs⟩
  · rw [if_pos hoff, parse_of_checkRequest hs, hgoesOn]
  · rw [if_neg (hchecked hon), if_pos hlen, parse, hs]
    rfl
  · have hmatch : crc16 body = sent := hbody hon ▸ hcrc
    rw [if_neg (hchecked hon), if_neg (Nat.not_lt.mpr hlen), if_pos hmatch, parse_of_checkRequest hs,
      hbody hon, hgoesOn]
  · have hmismatch : crc16 body ≠ sent := hbody hon ▸ hcrc
    rw [if_neg (hchecked hon), if_neg (Nat.not_lt.mpr hlen), if_neg hmismatch, parse, hs]
    rfl

/-- Settles O30: the check finds the CRC it computes. -/
theorem requestsWithTheirCrcPassTheCheck : Obligations.RequestsWithTheirCrcPassTheCheck :=
  fun _ _ hlen hon => parse_append_crcTrailer hon hlen

end Sys2Proof.Proofs
end

section
/-! PROOFS. One step in one equation: a reset, a wait, or the oldest frame of the queue. The effect of a
frame is a bank, an accumulator and a result, and it does not look at the queue, the results or the
accumulator (R30, R31, R51, R152, R193, R201, R203, R205). -/

namespace Sys2Proof.Machine

/-- The state after a frame: that after its instruction, or after the drop with its cause (R140). -/
def State.afterFrame (s : State) : Except DropCause Instr → State
  | .ok i => s.after i
  | .error cause => s.drop cause

/-- The step on a taken frame (R140). -/
theorem State.Takes.step_eq {s : State} {f : Frame} {rest : List Frame} (h : s.Takes f rest) :
    step s = .next (State.afterFrame { s with ingress := rest } (parse s.config f)) := by
  rw [h.step_eq_answer]
  cases hp : parse s.config f with
  | ok i => exact exec_eq_after (exists_encode_append_of_parse hp).1 _
  | error cause => rfl

theorem step_of_resetPending {s : State} (h : s.resetPending = true) :
    step s = .next s.takeReset := by
  simp [step, State.fetch, h]

/-- There is nothing to take: no reset is asserted, and before the first reset or with an empty queue no
frame is taken (R193, R201). -/
def State.Waits (s : State) : Prop :=
  s.resetPending = false ∧ (s.phase = .unreset ∨ s.ingress = [])

theorem State.Waits.step_eq {s : State} (h : s.Waits) : step s = .next s := by
  obtain ⟨hreset, hphase | hqueue⟩ := h
  · simp [step, State.fetch, hreset, hphase]
  · cases hphase : s.phase <;> simp [step, State.fetch, hreset, hphase, hqueue]

/-- What the block does next, by its reset line, its phase and its queue (R193, R201, R203, R205). -/
theorem State.waits_or_takes (s : State) :
    s.resetPending = true ∨ s.Waits ∨ ∃ f rest, s.Takes f rest := by
  rcases s.fetch_cases with ⟨h, -⟩ | ⟨h, hwait, -⟩ | ⟨f, rest, -, h, hready, hqueue, -⟩ |
    ⟨f, rest, -, h, hready, hqueue, -⟩
  · exact .inl h
  · exact .inr (.inl ⟨h, hwait⟩)
  · exact .inr (.inr ⟨f, rest, hready, h, hqueue⟩)
  · exact .inr (.inr ⟨f, rest, hready, h, hqueue⟩)

/-- The effect of a frame is a bank, an accumulator and a result, the same whatever the accumulator, the
queue and the results were (R30, R31). -/
theorem State.afterFrame_uniform (s : State) (p : Except DropCause Instr) :
    ∃ (h : Bank) (y : Word → Word) (r : Result), ∀ (x : Word) (q : List Frame) (e : List Result),
      State.afterFrame { s with crcAcc := x, ingress := q, egress := e } p =
        { s with holding := h, crcAcc := y x, ingress := q, egress := e ++ [r] } := by
  cases p with
  | ok i =>
    have hbody (x : Word) (q : List Frame) (e : List Result) :
        i.replyBody { s with crcAcc := x, ingress := q, egress := e } = i.replyBody s :=
      Instr.replyBody_congr rfl fun _ => by cases bankSelect i.functionCode <;> rfl
    refine ⟨i.store s.holding, fun x => i.accumulator x (i.replyBody s), i.result (i.replyBody s),
      fun x q e => ?_⟩
    rw [State.afterFrame, State.after, hbody]
  | error cause => exact ⟨s.holding, id, .noReply cause, fun _ _ _ => rfl⟩

/-- A step on a taken frame has the effect of the frame and takes it off the queue. -/
theorem State.Takes.step_uniform {s : State} {f : Frame} {rest : List Frame} (h : s.Takes f rest) :
    ∃ (b : Bank) (y : Word → Word) (r : Result),
      (∀ (x : Word) (q : List Frame) (e : List Result),
        step { s with crcAcc := x, ingress := f :: q, egress := e } =
          .next { s with holding := b, crcAcc := y x, ingress := q, egress := e ++ [r] }) ∧
      step s =
        .next
          { s with holding := b, crcAcc := y s.crcAcc, ingress := rest, egress := s.egress ++ [r] } := by
  obtain ⟨b, y, r, huniform⟩ := s.afterFrame_uniform (parse s.config f)
  refine ⟨b, y, r, fun x q e => ?_, ?_⟩
  · have htakes : State.Takes { s with crcAcc := x, ingress := f :: q, egress := e } f q :=
      ⟨h.ready, h.noReset, rfl⟩
    rw [htakes.step_eq]
    exact congrArg Host.Outcome.next (huniform x q e)
  · rw [h.step_eq]
    exact congrArg Host.Outcome.next (huniform s.crcAcc rest s.egress)

/-- What a step that answers has done: a reset, nothing, or one frame, whose effect is uniform. -/
theorem step_next_cases {s t : State} (h : step s = .next t) :
    (s.resetPending = true ∧ t = s.takeReset) ∨ (s.Waits ∧ t = s) ∨
    ∃ (f : Frame) (rest : List Frame) (b : Bank) (y : Word → Word) (r : Result),
      s.Takes f rest ∧
      t = { s with holding := b, crcAcc := y s.crcAcc, ingress := rest, egress := s.egress ++ [r] } ∧
      ∀ (x : Word) (q : List Frame) (e : List Result),
        step { s with crcAcc := x, ingress := f :: q, egress := e } =
          .next { s with holding := b, crcAcc := y x, ingress := q, egress := e ++ [r] } := by
  rcases s.waits_or_takes with hreset | hwait | ⟨f, rest, hf⟩
  · rw [step_of_resetPending hreset] at h
    cases h
    exact .inl ⟨hreset, rfl⟩
  · rw [hwait.step_eq] at h
    cases h
    exact .inr (.inl ⟨hwait, rfl⟩)
  · obtain ⟨b, y, r, huniform, hstep⟩ := hf.step_uniform
    rw [hstep] at h
    cases h
    exact .inr (.inr ⟨f, rest, b, y, r, hf, rfl, huniform⟩)

end Sys2Proof.Machine

namespace Sys2Proof.Proofs

open Sys2Proof Sys2Proof.Machine

/-- Settles O36: a reset and a wait take no frame and give no result; a frame taken gives its one. -/
theorem oneResultPerFrameTaken : Obligations.OneResultPerFrameTaken := by
  intro s
  rcases s.waits_or_takes with hreset | hwait | ⟨f, rest, hf⟩
  · exact ⟨_, step_of_resetPending hreset, .inl ⟨rfl, rfl⟩⟩
  · exact ⟨_, hwait.step_eq, .inl ⟨rfl, rfl⟩⟩
  · obtain ⟨b, y, r, -, hstep⟩ := hf.step_uniform
    exact ⟨_, hstep, .inr ⟨f, r, hf.oldest, rfl⟩⟩

/-- Settles O43: before the first reset the block waits, whatever the queue. -/
theorem noFrameIsTakenBeforeReset : Obligations.NoFrameIsTakenBeforeReset :=
  fun _ hphase hreset => State.Waits.step_eq ⟨hreset, .inl hphase⟩

/-- Settles O44: with an empty queue the block waits, in either phase. -/
theorem emptyQueueHoldsTheState : Obligations.EmptyQueueHoldsTheState :=
  fun _ hqueue hreset => State.Waits.step_eq ⟨hreset, .inr hqueue⟩

/-- Settles O47: a frame changes a bank, the accumulator, the queue and the results alone. -/
theorem framesKeepPhaseAndParameters : Obligations.FramesKeepPhaseAndParameters := by
  intro s t h
  rcases step_next_cases h with ⟨hreset, rfl⟩ | ⟨-, rfl⟩ | ⟨f, rest, b, y, r, -, rfl, -⟩
  · exact ⟨rfl, .inr ⟨hreset, rfl⟩⟩
  · exact ⟨rfl, .inl rfl⟩
  · exact ⟨rfl, .inl rfl⟩

/-- Settles O48: a reset and a wait keep the accumulator, and the effect of a frame is the same whatever
it holds. -/
theorem accumulatorIsHidden : Obligations.AccumulatorIsHidden := by
  intro s t x h
  rcases step_next_cases h with ⟨hreset, rfl⟩ | ⟨hwait, rfl⟩ | ⟨f, rest, b, y, r, hf, rfl, huniform⟩
  · exact ⟨x, step_of_resetPending hreset⟩
  · exact ⟨x, State.Waits.step_eq hwait⟩
  · rw [hf.oldest]
    exact ⟨y x, huniform x rest s.egress⟩

/-- Settles O49: a reset and a wait keep the results, and the effect of a frame is the same whatever
they are. -/
theorem earlierResultsDoNotMatter : Obligations.EarlierResultsDoNotMatter := by
  intro s t before h
  rcases step_next_cases h with ⟨hreset, rfl⟩ | ⟨hwait, rfl⟩ | ⟨f, rest, b, y, r, hf, rfl, huniform⟩
  · exact step_of_resetPending hreset
  · exact State.Waits.step_eq hwait
  · rw [hf.oldest, ← List.append_assoc]
    exact huniform s.crcAcc rest (before ++ s.egress)

end Sys2Proof.Proofs
end

section
/-! PROOFS. The unit id of a request stands in byte 0 of its reply and nowhere else (R71, R151). -/

namespace Sys2Proof

open Sys2Proof.Machine

/-- The instruction with another unit id. -/
def Instr.withUnit (v : Byte) : Instr → Instr
  | .rdh _ a n => .rdh v a n
  | .rdi _ a n => .rdi v a n
  | .wrs _ a w => .wrs v a w
  | .wrm _ a n b vs => .wrm v a n b vs

@[simp] theorem Instr.withUnit_store (v : Byte) (i : Instr) : (i.withUnit v).store = i.store := by
  cases i <;> rfl

@[simp] theorem Instr.withUnit_replyBody (v : Byte) (i : Instr) (s : State) :
    (i.withUnit v).replyBody s = i.replyBody s := by
  cases i <;> rfl

@[simp] theorem Instr.withUnit_replyPdu (v : Byte) (i : Instr) (body : Frame) :
    (i.withUnit v).replyPdu body = v :: i.functionCode.toByte :: body := by
  cases i <;> rfl

theorem decodePayload_withUnit (fc : FunctionCode) (u v : Byte) (a : Word) (p : Frame) :
    decodePayload fc v a p = (decodePayload fc u a p).map (Instr.withUnit v) := by
  match p, fc with
  | [], _ | [_], _ | _ :: _ :: _, .readHolding | _ :: _ :: _, .readInput | _ :: _ :: _, .writeSingle
  | [_, _], .writeMultiple => rfl
  | x :: l :: b :: data, .writeMultiple =>
    rw [decodePayload_writeMultiple, decodePayload_writeMultiple]
    split_ifs <;> rfl

/-- The decoder passes byte 0 on and does not look at it (R71). -/
theorem decode_withUnit (u v : Byte) (g : Frame) :
    decode (v :: g) = (decode (u :: g)).map (Instr.withUnit v) := by
  match g with
  | [] | [_] | [_, _] => rfl
  | code :: ah :: al :: p =>
    simp only [decode]
    cases FunctionCode.ofByte code with
    | none => rfl
    | some fc => exact decodePayload_withUnit fc u v _ p

/-- The decoder gives the instruction byte 0 as its unit id (R61). -/
theorem unit_of_decode_cons {u : Byte} {g : Frame} {i : Instr} (h : decode (u :: g) = .ok i) :
    i.unit = u := by
  obtain ⟨-, t, hframe⟩ := exists_encode_append_of_decode h
  rw [encode_eq_header_append_payload] at hframe
  exact (List.cons.inj hframe).1.symm

end Sys2Proof

namespace Sys2Proof.Proofs

open Sys2Proof Sys2Proof.Machine

/-- Settles O33: the two frames decode to instructions that differ in the unit id alone, and neither the
bank they leave nor the body of their reply depends on it. -/
theorem unitIdIsOnlyEchoed : Obligations.UnitIdIsOnlyEchoed := by
  intro s t u v f f' g rest hf hg hg' h
  have hstep := hf.step_eq
  have hstep' := (hf.replaceOldest f').step_eq
  rw [parse_of_checkRequest hg] at hstep
  rw [parse_of_checkRequest hg', decode_withUnit u v g] at hstep'
  rw [h] at hstep
  cases hstep
  refine ⟨_, hstep', ?_⟩
  cases hdecode : decode (u :: g) with
  | error cause => exact ⟨rfl, rfl, .inl ⟨cause, rfl, rfl⟩⟩
  | ok i =>
    have hunit : i.unit = u := unit_of_decode_cons hdecode
    simp only [Except.map, State.afterFrame, State.after_holding, State.after_input, State.after_egress,
      Instr.withUnit_store, Instr.withUnit_replyBody, true_and]
    cases i.replyBody { s with ingress := rest } with
    | error cause => exact .inl ⟨cause, rfl, rfl⟩
    | ok body =>
      refine .inr ⟨i.functionCode.toByte :: body, ?_, ?_⟩
      · rw [Instr.result, Instr.replyPdu, hunit]
      · rw [Instr.result, Instr.withUnit_replyPdu]

/-- Settles O34: the reply of a frame that parses begins as its PDU, whose first two bytes are those of
the frame. -/
theorem replyStartsWithUnitIdAndFunctionCode : Obligations.ReplyStartsWithUnitIdAndFunctionCode := by
  intro s t f rest r hf h hreply
  rw [hf.step_eq] at h
  cases h
  cases hp : parse s.config f with
  | error cause => simp [hp, State.afterFrame] at hreply
  | ok i =>
    obtain ⟨hunit, hcode⟩ := header_of_parse hp
    rw [hunit, hcode]
    simp only [hp, State.afterFrame, State.after_egress, List.append_cancel_left_eq, List.cons.injEq,
      and_true] at hreply
    cases hbody : i.replyBody { s with ingress := rest } with
    | error cause =>
      rw [hbody] at hreply
      cases hreply
    | ok body =>
      rw [hbody] at hreply
      cases hreply
      exact ⟨rfl, rfl⟩

end Sys2Proof.Proofs
end

section
/-! PROOFS. What the host does, and what reset leaves (R9, R33 to R36, R125, R200 to R210). -/

namespace Sys2Proof.Machine

theorem State.deliver_of_deliverable {s : State} {f : Frame} (h : deliverable s.config f = true) :
    s.deliver f = { s with ingress := s.ingress ++ [f] } := if_pos h

theorem State.deliver_of_not_deliverable {s : State} {f : Frame}
    (h : deliverable s.config f = false) : s.deliver f = s := by
  rw [State.deliver, if_neg (Bool.eq_false_iff.mp h)]

/-- The bound of the host, if it has one (R9). -/
theorem deliverable_eq_all (c : Config) (f : Frame) :
    deliverable c f = c.maxFrameLen.all fun m => decide (f.length ≤ m) := by
  unfold deliverable
  cases c.maxFrameLen <;> rfl

end Sys2Proof.Machine

namespace Sys2Proof.Proofs

open Sys2Proof Sys2Proof.Machine

/-- Settles O53: the bound is what decides whether a frame joins the queue, and each joins it last. -/
theorem deliveredFramesJoinTheQueueLast : Obligations.DeliveredFramesJoinTheQueueLast := by
  intro s
  refine ⟨fun f hbound => State.deliver_of_deliverable ?_,
    fun f m hm hlong => State.deliver_of_not_deliverable ?_, fun fs => ?_⟩
  · cases hmax : s.config.maxFrameLen with
    | none => simp [deliverable_eq_all, hmax]
    | some m => simp [deliverable_eq_all, hmax, hbound m hmax]
  · simp [deliverable_eq_all, hm, hlong]
  · rw [State.deliver_foldl, show deliverable s.config = _ from funext (deliverable_eq_all s.config)]

/-- Settles O54: the frame joins the queue behind the one taken, and a reset, or a wait before the first
reset, keeps the queue; a wait after it is the step that the hypothesis leaves out. -/
theorem laterArrivalsDoNotChangeTheStep : Obligations.LaterArrivalsDoNotChangeTheStep := by
  intro s t g hasleep h
  have hconfig : t.config = s.config := (framesKeepPhaseAndParameters s t h).1
  cases hg : deliverable s.config g with
  | false =>
    rwa [State.deliver_of_not_deliverable hg, State.deliver_of_not_deliverable (hconfig ▸ hg)]
  | true =>
    rw [State.deliver_of_deliverable hg, State.deliver_of_deliverable (hconfig ▸ hg)]
    rcases step_next_cases h with ⟨hreset, rfl⟩ | ⟨⟨hreset, hwait⟩, rfl⟩ |
      ⟨f, rest, b, y, r, hf, rfl, huniform⟩
    · exact step_of_resetPending hreset
    · have hphase : t.phase = .unreset := by
        rcases hasleep with hqueue | hphase | hpending
        · exact hwait.resolve_right hqueue
        · exact hphase
        · simp [hreset] at hpending
      exact State.Waits.step_eq ⟨hreset, .inl hphase⟩
    · rw [hf.oldest]
      exact huniform s.crcAcc (rest ++ [g]) s.egress

/-- Settles O41: the step takes the reset, which writes both banks whole from their tables. -/
theorem resetInitializesBothBanks : Obligations.ResetInitializesBothBanks := by
  intro s ⟨hholding, hinput, hunset⟩ hreset
  exact ⟨_, step_of_resetPending hreset, fun _ => Bank.read_ofTable_of_mem hholding,
    fun _ => Bank.read_ofTable_of_not_mem, fun _ => Bank.read_ofTable_of_mem hinput,
    fun _ => Bank.read_ofTable_of_not_mem, Bank.read_ofTable_of_not_mem hunset,
    rfl, rfl, rfl, rfl, rfl⟩

/-- Settles O42: both banks are made from their tables. -/
theorem resetStateHoldsTheTables : Obligations.ResetStateHoldsTheTables := by
  refine ⟨rfl, fun c ⟨hholding, hinput, _⟩ => ?_⟩
  exact ⟨fun _ => Bank.read_ofTable_of_mem hholding, fun _ => Bank.read_ofTable_of_not_mem,
    fun _ => Bank.read_ofTable_of_mem hinput, fun _ => Bank.read_ofTable_of_not_mem, rfl, rfl⟩

/-- Settles O45: a block at power-up waits, also after a delivery, and a reset writes what power-up left
but for the accumulator. -/
theorem powerUpContentsAreUnobservable : Obligations.PowerUpContentsAreUnobservable := by
  intro c h i x f
  refine ⟨?_, step_of_resetPending rfl⟩
  rcases (State.powerUp c h i x).deliver_cases f with ⟨-, e⟩ | ⟨-, e⟩ <;> rw [e]
  · exact State.Waits.step_eq ⟨rfl, .inl rfl⟩
  · exact State.Waits.step_eq ⟨rfl, .inl rfl⟩

/-- Settles O55: a terminated block waits, and a reset writes whatever the termination left. -/
theorem terminationLosesTheBlockState : Obligations.TerminationLosesTheBlockState := by
  intro s h i x
  exact ⟨fun hreset => State.Waits.step_eq ⟨hreset, .inl rfl⟩,
    fun hreset => step_of_resetPending hreset, step_of_resetPending rfl⟩

end Sys2Proof.Proofs
end

section
/-! PROOFS. What every step and the host keep of a sound state (R9, R23, R66 to R69, R125). -/

namespace Sys2Proof.Machine

/-! ### Replies -/

/-- The body of a read reply is one byte longer than its words, at most 254 bytes of them under `Drop`
(R66, R154). -/
theorem State.readBody_length {s : State} {fc : FunctionCode} {a n : Word} {body : Frame}
    (h : s.readBody fc a n = .ok body) :
    1 ≤ body.length ∧ (s.config.byteCountPolicy = .drop → body.length ≤ 255) := by
  unfold State.readBody at h
  split at h
  next => cases h
  next hkeeps =>
    cases h
    refine ⟨by simp, fun hpolicy => ?_⟩
    have hn : n.toNat ≤ 127 := by
      rcases (byteCountDrops_eq_false s.config n).mp (Bool.eq_false_iff.mpr hkeeps) with hn | htruncate
      · exact hn
      · rw [hpolicy] at htruncate
        cases htruncate
    simp
    omega

/-- The body of a reply is a byte at least, and under `Drop` at most 255 bytes (R66 to R68, R154). -/
theorem replyBody_length {s : State} {i : Instr} {body : Frame} (h : i.replyBody s = .ok body) :
    1 ≤ body.length ∧ (s.config.byteCountPolicy = .drop → body.length ≤ 255) := by
  cases i with
  | rdh u a n | rdi u a n => exact State.readBody_length h
  | wrs u a v | wrm u a n b vs =>
    cases h
    simp

/-- A PDU of such a body makes a sound reply (R66 to R69). -/
theorem replyOk_of_body {c : Config} {body : Frame} (hshortest : 1 ≤ body.length)
    (hlongest : c.byteCountPolicy = .drop → body.length ≤ 255) (i : Instr) :
    ReplyOk c (i.replyPdu body ++ crcTrailer (crc16 (i.replyPdu body))) := by
  have hlen : (i.replyPdu body ++ crcTrailer (crc16 (i.replyPdu body))).length = body.length + 4 := by
    simp [Instr.replyPdu]
  have hpdu : (i.replyPdu body ++ crcTrailer (crc16 (i.replyPdu body))).length - 2 =
      (i.replyPdu body).length := by
    simp
  refine ⟨?_, fun hpolicy => ?_, ?_, ?_⟩
  · omega
  · have hbody := hlongest hpolicy
    omega
  · have hcode : FunctionCode.ofByte i.functionCode.toByte = some i.functionCode :=
      FunctionCode.ofByte_toByte _
    exact congrArg Option.isSome hcode
  · rw [hpdu, List.drop_left, List.take_left]

theorem replyOk_of_result {s : State} {i : Instr} {r : Frame}
    (h : i.result (i.replyBody s) = .reply r) : ReplyOk s.config r := by
  cases hbody : i.replyBody s with
  | error cause =>
    rw [hbody] at h
    cases h
  | ok body =>
    rw [hbody] at h
    cases h
    obtain ⟨hshortest, hlongest⟩ := replyBody_length hbody
    exact replyOk_of_body hshortest hlongest i

/-! ### Frames -/

theorem store_wf (i : Instr) {b : Bank} (h : b.Wf) : (i.store b).Wf := by
  cases i with
  | rdh u a n | rdi u a n => exact h
  | wrs u a v => exact Bank.write_wf h a v
  | wrm u a n c vs => exact Bank.writeFrom_wf a vs 0 h

/-- A result added to a sound state keeps it sound if it is a drop or a sound reply. -/
theorem State.Inv.emit {s : State} (h : s.Inv) {result : Result}
    (hresult : ∀ r, result = .reply r → ReplyOk s.config r) : (s.emit result).Inv := by
  refine ⟨h.holdingWf, h.inputWf, h.configWf, h.inputFixed, h.queued, fun r hr => ?_⟩
  rcases List.mem_append.mp hr with hold | hnew
  · exact h.replies r hold
  · exact hresult r (List.mem_singleton.mp hnew).symm

/-- A frame off the queue leaves a sound state. -/
theorem State.Inv.tail {s : State} (h : s.Inv) {f : Frame} {rest : List Frame}
    (hqueue : s.ingress = f :: rest) : State.Inv { s with ingress := rest } :=
  ⟨h.holdingWf, h.inputWf, h.configWf, h.inputFixed,
    fun g hg => h.queued g (hqueue ▸ List.mem_cons_of_mem f hg), h.replies⟩

/-- An instruction keeps a sound state sound (R66 to R69, R125). -/
theorem State.Inv.after {s : State} (h : s.Inv) (i : Instr) : (s.after i).Inv := by
  have hstored : State.Inv
      { s with holding := i.store s.holding, crcAcc := i.accumulator s.crcAcc (i.replyBody s) } :=
    ⟨store_wf i h.holdingWf, h.inputWf, h.configWf, h.inputFixed, h.queued, h.replies⟩
  exact hstored.emit fun _ => replyOk_of_result

theorem State.Inv.afterFrame {s : State} (h : s.Inv) (p : Except DropCause Instr) :
    (s.afterFrame p).Inv := by
  cases p with
  | ok i => exact h.after i
  | error cause => exact h.emit fun _ hreply => by cases hreply

/-- A reset writes both banks and nothing the soundness of the rest looks at (R33, R34). -/
theorem State.Inv.takeReset {s : State} (h : s.Inv) : s.takeReset.Inv :=
  ⟨Bank.ofTable_wf _, Bank.ofTable_wf _, h.configWf, fun _ => rfl, h.queued, h.replies⟩

end Sys2Proof.Machine

namespace Sys2Proof.Proofs

open Sys2Proof Sys2Proof.Machine

/-- Settles O50: a reset, a wait and a frame each keep a sound state sound. -/
theorem stepKeepsSoundStates : Obligations.StepKeepsSoundStates := by
  intro s t hinv h
  rcases s.waits_or_takes with hreset | hwait | ⟨f, rest, hf⟩
  · rw [step_of_resetPending hreset] at h
    cases h
    exact hinv.takeReset
  · rw [hwait.step_eq] at h
    cases h
    exact hinv
  · rw [hf.step_eq] at h
    cases h
    exact (hinv.tail hf.oldest).afterFrame _

/-- Settles O51: the tables leave canonical banks, and the queue and the results are empty. -/
theorem resetStatesAreSound : Obligations.ResetStatesAreSound :=
  fun _ hconfig => ⟨Bank.ofTable_wf _, Bank.ofTable_wf _, hconfig, fun _ => rfl,
    fun _ hf => absurd hf List.not_mem_nil, fun _ hr => absurd hr List.not_mem_nil⟩

/-- Settles O52: only a frame within the bound joins the queue, and a terminated block is not ready. -/
theorem hostActionsKeepSoundStates : Obligations.HostActionsKeepSoundStates := by
  intro s hinv
  refine ⟨fun f => ?_, ?_, fun h i x hh hi => ?_⟩
  · rcases s.deliver_cases f with ⟨hf, e⟩ | ⟨-, e⟩ <;> rw [e]
    · refine ⟨hinv.holdingWf, hinv.inputWf, hinv.configWf, hinv.inputFixed, fun g hg => ?_,
        hinv.replies⟩
      rcases List.mem_append.mp hg with hold | hnew
      · exact hinv.queued g hold
      · rw [List.mem_singleton.mp hnew]
        exact hf
    · exact hinv
  · exact ⟨hinv.holdingWf, hinv.inputWf, hinv.configWf, hinv.inputFixed, hinv.queued, hinv.replies⟩
  · exact ⟨hh, hi, hinv.configWf, (fun hready => nomatch hready), hinv.queued, hinv.replies⟩

end Sys2Proof.Proofs
end

section
/-! PROOFS. Frames one after another (R51, R205, R206, R211). -/

namespace Sys2Proof.Machine

/-- A request sent as the configuration asks runs its instruction (R74, R75, R144). -/
theorem State.Takes.step_wireFrame_encode {s : State} {i : Instr} {rest : List Frame}
    (h : s.Takes (wireFrame s.config (encode i)) rest) (hwf : i.wf = true) :
    step s = .next (State.after { s with ingress := rest } i) := by
  rw [h.step_eq, parse_wireFrame_encode s.config hwf]
  rfl

/-- A run goes on from the state its first step answers with. -/
theorem run_succ_of_step {s t : State} (h : step s = .next t) (k : Nat) :
    Host.Core.run Sys2Proof.core (k + 1) s = Host.Core.run Sys2Proof.core k t := by
  have hcore : Sys2Proof.core.step s = .next t := h
  simp only [Host.Core.run, hcore]

/-- A read of one word finds the word at its address (R66, R145). -/
theorem State.readBody_one (s : State) (fc : FunctionCode) (a : Word) :
    s.readBody fc a 1 = .ok (2 :: wordBytes ((s.bank (bankSelect fc)).read a)) := by
  have hfits : (1 : Word).toNat ≤ 127 := by decide
  rw [State.readBody_of_fits (.inl hfits)]
  simp

end Sys2Proof.Machine

namespace Sys2Proof.Proofs

open Sys2Proof Sys2Proof.Machine

/-- Settles O37: the first frame leaves the word in `H`, and the second replies with the one word it
finds there. -/
theorem readFrameSeesTheWriteBeforeIt : Obligations.ReadFrameSeesTheWriteBeforeIt := by
  intro s u u' a v rest hf p q
  let written := State.after
    { s with ingress := wireFrame s.config (encode (.rdh u' a 1)) :: rest } (.wrs u a v)
  let taken : State := { written with ingress := rest }
  have hnext : written.Takes (wireFrame written.config (encode (.rdh u' a 1))) rest :=
    ⟨hf.ready, hf.noReset, rfl⟩
  have hword : taken.holding.read a = v := Bank.read_write_same s.holding a v
  have hbody : (Instr.rdh u' a 1).replyBody taken = .ok (2 :: wordBytes v) :=
    hword ▸ taken.readBody_one .readHolding a
  refine ⟨written, taken.after (.rdh u' a 1), hf.step_wireFrame_encode rfl,
    hnext.step_wireFrame_encode rfl, rfl, ?_⟩
  rw [State.after_egress, hbody]
  exact List.append_assoc s.egress _ _

/-- Settles O40: induction on the number of steps, each of which refines the pseudocode. -/
theorem runProcessesTheQueueInOrder : Obligations.RunProcessesTheQueueInOrder := by
  intro s k hready hreset hk
  induction k generalizing s with
  | zero => exact ⟨s, rfl, rfl, by simp [processAll], fun _ => rfl, rfl⟩
  | succ k ih =>
    match hqueue : s.ingress with
    | [] => simp [hqueue] at hk
    | f :: rest =>
      obtain ⟨t, hstep, hrest, hresult, hholding, hinput, hphase, hconfig, hpending⟩ :=
        stepRefinesProcess s f rest ⟨hready, hreset, hqueue⟩
      have hk' : k ≤ t.ingress.length := by
        rw [hqueue] at hk
        rw [hrest]
        exact Nat.le_of_succ_le_succ hk
      obtain ⟨t', hrun, hrest', hresults, hholding', hinput'⟩ :=
        ih t (hphase.trans hready) (hpending.trans hreset) hk'
      have hread : t.holding.read = (process s.config s.holding.read s.input.read f).2 :=
        funext hholding
      rw [hconfig, hinput, hread, hrest] at hresults hholding'
      refine ⟨t', ?_, ?_, ?_, ?_, ?_⟩
      · rw [run_succ_of_step hstep, hrun]
      · rw [hrest', hrest]
        rfl
      · rw [hresults, hresult, List.append_assoc]
        rfl
      · exact hholding'
      · rw [hinput', hinput]

end Sys2Proof.Proofs
end
